-- ==== Sys2Proof/Word.lean ====
section
/-!
DEFINITION. The word types: a 64-bit window register (10_state.md R20), a byte lane of the window (20_memory.md R48),
a 16-bit code unit (30_encoding.md R67) and a 32-bit STATUS or command word (10_state.md R29, 30_encoding.md R65).
-/

namespace Sys2Proof

/-- One 64-bit register of the engine, as bits. -/
abbrev Word := BitVec 64

/-- One byte lane of a window access. -/
abbrev Byte := BitVec 8

/-- One UTF-16 code unit, the immediate of MASH_STEP. -/
abbrev CodeUnit := BitVec 16

end Sys2Proof
end

