-- ==== Sys2Proof/Syntax.lean ====
section
/-!
DEFINITION. The engine's commands: one constructor per row of spec/opcode_table.json (30_encoding.md R68), and what a
CMD value that is no command is refused for (30_encoding.md R69).
-/

namespace Sys2Proof

/-- The nine commands of 30_encoding.md R68. Only MASH_STEP has an operand field (R67). -/
inductive Instr where
  /-- MASH_INIT, OPC 0x01 (41_mash.md R92). -/
  | mashInit
  /-- MASH_STEP, OPC 0x02, with its 16-bit code unit (41_mash.md R93). -/
  | mashStep (cu : CodeUnit)
  /-- MASH_OUT, OPC 0x03 (41_mash.md R94). -/
  | mashOut
  /-- TRUNC32, OPC 0x08 (40_int32.md R85). -/
  | trunc32
  /-- SEED_BEGIN, OPC 0x10 (42_alea.md R101). -/
  | seedBegin
  /-- SEED_FOLD, OPC 0x11 (42_alea.md R102). -/
  | seedFold
  /-- RANDOM, OPC 0x20 (42_alea.md R104). -/
  | random
  /-- UINT32, OPC 0x21 (42_alea.md R105). -/
  | uint32
  /-- CLRERR, OPC 0x3F (43_system.md R120). -/
  | clrErr
  deriving DecidableEq, Repr

/-- Why a CMD value is illegal, one name per bullet of 30_encoding.md R69. The engine reports all of them as
ILLEGAL_CMD; the names keep the order of 60_exceptions.md R128 visible. -/
inductive IllegalCause where
  /-- Bits 63:32 are not 0. -/
  | hiNotZero
  /-- Bits 23:16 are not 0. -/
  | rsvNotZero
  /-- Bits 31:24 are none of the nine opcodes. -/
  | opcUnassigned
  /-- Bits 15:0 are not 0 and the opcode is not MASH_STEP's. -/
  | immNotZero
  deriving DecidableEq, Repr

end Sys2Proof
end

