-- ==== Sys2Proof/WellFormed.lean ====
section
/-!
DEFINITION. Which terms are well formed: a CMD value that 30_encoding.md R69 does not make illegal, a window access
that 20_memory.md R47 admits, and an instruction.

An instruction's one operand is a `BitVec 16`, so its range ([0, 65535], 30_encoding.md R67) is in its type and every
`Instr` is well formed; what can be ill formed is the CMD value a host writes and the access it makes.
-/

namespace Sys2Proof

/-- The nine assigned values of OPC (30_encoding.md R68). -/
def assignedOpcodes : List (BitVec 8) := [0x01, 0x02, 0x03, 0x08, 0x10, 0x11, 0x20, 0x21, 0x3F]

/-- No bullet of 30_encoding.md R69 holds of the CMD value `v`. -/
def legalCmd (v : Word) : Bool :=
  v.extractLsb 63 32 == 0 && v.extractLsb 23 16 == 0 && assignedOpcodes.contains (v.extractLsb 31 24)
    && (v.extractLsb 31 24 == 0x02 || v.extractLsb 15 0 == 0)

/-- The access has a width and an alignment the engine serves (20_memory.md R47): 8 bytes at a multiple of 8. -/
def admittedAccess (off width : Nat) : Bool := width == 8 && off % 8 == 0

/-- Every operand lies in the range its field gives it (30_encoding.md R67). The operand types hold the ranges, so this
is true of every instruction (log entry 20). -/
def Instr.wellFormed : Instr → Bool
  | .mashStep cu => decide (cu.toNat < 65536)
  | .mashInit => true
  | .mashOut => true
  | .trunc32 => true
  | .seedBegin => true
  | .seedFold => true
  | .random => true
  | .uint32 => true
  | .clrErr => true

end Sys2Proof
end

