-- ==== Sys2Proof/Decode.lean ====
section
/-!
DEFINITION. The command encoding of 30_encoding.md: the decoder of R72 (total, refusing by the names of
`IllegalCause`), the encoder of R68 and the byte order of the window (20_memory.md R48).
-/

namespace Sys2Proof

/-! ### Byte order (20_memory.md R48) -/

/-- The eight bytes of a register value as they lie on the window, lowest address first: byte `i` is bits
`[8i+7 : 8i]`. -/
def bytesOfWord (v : Word) : List Byte := (List.range 8).map fun i => v.extractLsb' (8 * i) 8

/-- The number whose little-endian bytes are `bs`. -/
def natOfBytes : List Byte → Nat
  | [] => 0
  | b :: bs => b.toNat + 256 * natOfBytes bs

/-- The 64-bit value that an 8-byte access with the bytes `bs`, lowest address first, carries. -/
def wordOfBytes (bs : List Byte) : Word := BitVec.ofNat 64 (natOfBytes bs)

/-! ### Fields of format C (30_encoding.md R66) -/

/-- HI, bits 63:32: reserved, must be 0. -/
def hiField (v : Word) : BitVec 32 := v.extractLsb 63 32

/-- OPC, bits 31:24. -/
def opcField (v : Word) : BitVec 8 := v.extractLsb 31 24

/-- RSV, bits 23:16: reserved, must be 0. -/
def rsvField (v : Word) : BitVec 8 := v.extractLsb 23 16

/-- IMM16, bits 15:0. -/
def immField (v : Word) : CodeUnit := v.extractLsb 15 0

/-! ### The decoder -/

/-- A command with no immediate: its IMM16 must be 0 (30_encoding.md R67, R69). -/
def noImmediate (v : Word) (i : Instr) : Except IllegalCause Instr :=
  if immField v = 0 then .ok i else .error .immNotZero

/-- 30_encoding.md R72, in the order of 60_exceptions.md R128: HI and RSV, then OPC, then IMM16. -/
def decodeCmd (v : Word) : Except IllegalCause Instr :=
  if hiField v ≠ 0 then .error .hiNotZero
  else if rsvField v ≠ 0 then .error .rsvNotZero
  else
    match (opcField v).toNat with
    | 0x01 => noImmediate v .mashInit
    | 0x02 => .ok (.mashStep (immField v))
    | 0x03 => noImmediate v .mashOut
    | 0x08 => noImmediate v .trunc32
    | 0x10 => noImmediate v .seedBegin
    | 0x11 => noImmediate v .seedFold
    | 0x20 => noImmediate v .random
    | 0x21 => noImmediate v .uint32
    | 0x3F => noImmediate v .clrErr
    | _ => .error .opcUnassigned

/-- The instruction decoded from a table word: the `nbits` bits of `w`, the bits above them 0, laid out on the window
in its byte order and decoded (log entry 16). -/
def decodeTableWord (nbits w : Nat) : Option Instr :=
  match decodeCmd (wordOfBytes (bytesOfWord (BitVec.ofNat 64 (w % 2 ^ min nbits 64)))) with
  | .ok i => some i
  | .error _ => none

/-- The rows of the opcode map, match and mask, in its order (30_encoding.md R68, spec/opcode_table.json). -/
def opcodeRows : List (Word × Word) :=
  [(0x0000000001000000, 0xFFFFFFFFFFFFFFFF), (0x0000000002000000, 0xFFFFFFFFFFFF0000),
   (0x0000000003000000, 0xFFFFFFFFFFFFFFFF), (0x0000000008000000, 0xFFFFFFFFFFFFFFFF),
   (0x0000000010000000, 0xFFFFFFFFFFFFFFFF), (0x0000000011000000, 0xFFFFFFFFFFFFFFFF),
   (0x0000000020000000, 0xFFFFFFFFFFFFFFFF), (0x0000000021000000, 0xFFFFFFFFFFFFFFFF),
   (0x000000003F000000, 0xFFFFFFFFFFFFFFFF)]

/-- The CMD value lies in the row. -/
def inRow (v : Word) (row : Word × Word) : Bool := v &&& row.2 == row.1

/-- The place of a command's row in `opcodeRows`. -/
def rowIndex : Instr → Nat
  | .mashInit => 0
  | .mashStep _ => 1
  | .mashOut => 2
  | .trunc32 => 3
  | .seedBegin => 4
  | .seedFold => 5
  | .random => 6
  | .uint32 => 7
  | .clrErr => 8

/-! ### The encoder (30_encoding.md R68) -/

/-- The opcode of each command. -/
def opcodeOf : Instr → BitVec 8
  | .mashInit => 0x01
  | .mashStep _ => 0x02
  | .mashOut => 0x03
  | .trunc32 => 0x08
  | .seedBegin => 0x10
  | .seedFold => 0x11
  | .random => 0x20
  | .uint32 => 0x21
  | .clrErr => 0x3F

/-- The immediate of each command: 0 for all but MASH_STEP (30_encoding.md R67). -/
def immediateOf : Instr → CodeUnit
  | .mashStep cu => cu
  | .mashInit => 0
  | .mashOut => 0
  | .trunc32 => 0
  | .seedBegin => 0
  | .seedFold => 0
  | .random => 0
  | .uint32 => 0
  | .clrErr => 0

/-- The CMD value of a command: `{HI = 0, OPC, RSV = 0, IMM16}` (30_encoding.md R66). -/
def encode (i : Instr) : Word := 0#32 ++ opcodeOf i ++ 0#8 ++ immediateOf i

end Sys2Proof
end

