-- ==== Sys2Proof/Config.lean ====
section
/-!
DEFINITION. What the spec leaves open. Every constant here is a FREE VALUE: it has no body, so no proof can know what
it is. The open platform parameters WINDOW_BASE and N_INSTANCES (00_scope.md R7) are arguments of
Sys2Proof/Machine/Platform.lean; CMD_LATENCY and BUS_ERR_SIGNAL have no effect on any rule (log entries 3, 13).
-/

namespace Sys2Proof

/-- The three binary64 operations of 00_scope.md R10: they tell apart the NaN results of different operations. -/
inductive FloatOp where
  | add
  | sub
  | mul
  deriving DecidableEq, Repr

/-- What the internal uses of `Int32Emu` give for a NaN or an infinity: 40_int32.md R80 leaves it undefined, and R83
shows that no run gets there (log entry 6). -/
opaque Config.int32NonFinite : Word → Word

/-- The sign and payload of a NaN that a binary64 operation delivers: 00_scope.md R10 names the IEEE-754 operation,
which does not fix them; no run gets there (log entry 7). -/
opaque Config.nanBits : FloatOp → Word → Word → Word

/-- UINT32's result when `floor(val(fmul(S2, TWO_32)))` is not in [0, 2^32) or does not exist: 42_alea.md R105 states a
result only for `u in [0, 2^32)`; no run gets elsewhere (log entry 8). -/
opaque Config.uint32OutOfRange : Word → BitVec 32

/-- Whether the n-th CMD write that a reset abandoned completes on the bus, 'as the platform decides'
(70_reset_and_hazards.md R145; log entry 9). -/
opaque Config.abandonedCompletes : Nat → Bool

end Sys2Proof
end

