-- ==== Sys2Proof/Machine/Float.lean ====
section
/-!
DEFINITION. binary64 arithmetic (00_scope.md R10, 10_state.md R21): the layout, the exact value of a bit pattern, and
addition, subtraction and multiplication, each computed exactly on integers and rounded once to nearest, ties to even.

Exact values are integers in units of 2^-1074, the least positive binary64: every finite binary64 is a whole number of
them, and a product of two is a whole number of units of 2^-2148.
-/

namespace Sys2Proof.Machine

/-! ### Layout (10_state.md R21) -/

/-- Bit 63, the sign. -/
def F64.sign (b : Word) : Bool := b[63]

/-- Bits 62:52, the biased exponent. -/
def F64.expField (b : Word) : Nat := (b.extractLsb 62 52).toNat

/-- Bits 51:0, the fraction. -/
def F64.fraction (b : Word) : Nat := (b.extractLsb 51 0).toNat

/-- False exactly for the infinities and the NaNs: the exponent field is all ones (00_scope.md R10). -/
def F64.isFinite (b : Word) : Bool := F64.expField b != 0x7FF

/-- A NaN: exponent all ones and a nonzero fraction. -/
def F64.isNaN (b : Word) : Bool := F64.expField b == 0x7FF && F64.fraction b != 0

/-- An infinity: exponent all ones and a zero fraction. -/
def F64.isInf (b : Word) : Bool := F64.expField b == 0x7FF && F64.fraction b == 0

/-! ### Exact values -/

/-- 2^k. Irreducible, so that no tactic multiplies out the large ones. -/
@[irreducible] def F64.twoPow (k : Nat) : Nat := 2 ^ k

/-- 1.0 in units of 2^-1074. -/
def F64.oneUnits : Nat := F64.twoPow 1074

/-- 2^-32 in units of 2^-1074. -/
def F64.q32Units : Nat := F64.twoPow 1042

/-- The magnitude of a finite binary64, in units of 2^-1074: the fraction for zeros and subnormals, else the 53-bit
significand shifted by the exponent. -/
def F64.mag (b : Word) : Nat :=
  if F64.expField b = 0 then F64.fraction b else (2 ^ 52 + F64.fraction b) * 2 ^ (F64.expField b - 1)

/-- The exact value of a finite binary64, in units of 2^-1074. Both zeros have value 0. -/
def F64.scaled (b : Word) : Int := if F64.sign b then -(F64.mag b : Int) else (F64.mag b : Int)

/-- `val(f)` of 00_scope.md R10: the number a finite binary64 denotes. -/
def F64.val (b : Word) : Rat := (F64.scaled b : Rat) / (F64.oneUnits : Rat)

/-- `trunc(val(f))` of 00_scope.md R10: the integer nearest to `f` in the direction of zero. -/
def F64.truncVal (b : Word) : Int := (F64.scaled b).tdiv F64.oneUnits

/-- `floor(val(f))` of 00_scope.md R10: the greatest integer at most `f`. -/
def F64.floorVal (b : Word) : Int := (F64.scaled b).fdiv F64.oneUnits

/-- `lt0(f)` of 00_scope.md R10: less than zero in the IEEE-754 sense; false for both zeros and for a NaN. -/
def F64.lt0 (b : Word) : Bool := F64.sign b && !F64.isNaN b && (b.extractLsb 62 0 != 0)

/-! ### Rounding (roundTiesToEven) -/

/-- The whole number nearest to `n / 2^q`, the even one of two equally near. -/
def F64.nearestEven (n q : Nat) : Nat :=
  let d := n / 2 ^ q
  let r := n % 2 ^ q
  if 2 * r > 2 ^ q || (2 * r == 2 ^ q && d % 2 == 1) then d + 1 else d

/-- Bits 62:0 of an infinity. -/
def F64.infMag : Nat := 0x7FF0000000000000

/-- How many low bits of `n` units of 2^-(1074+k) a binary64 cannot hold: at most 53 bits are kept, and none below
2^-1074. -/
def F64.droppedBits (k n : Nat) : Nat := max (n.log2 + 1 - 53) k

/-- Bits 62:0 of the binary64 nearest to `n` units of 2^-(1074+k), ties to even, an infinity from the overflow
threshold on. The rounded significand adds its own leading bit to the exponent field, also when it carries to the next
power of two. -/
def F64.roundMag (k n : Nat) : Nat :=
  min ((F64.droppedBits k n - k) * 2 ^ 52 + F64.nearestEven n (F64.droppedBits k n)) F64.infMag

/-- The binary64 with the sign `neg` and the bits 62:0 `m`. -/
def F64.pack (neg : Bool) (m : Nat) : Word := BitVec.ofNat 64 ((if neg then 2 ^ 63 else 0) + m)

/-- The binary64 nearest to `z` units of 2^-1074; +0.0 for 0. -/
def F64.ofScaled (z : Int) : Word := F64.pack (decide (z < 0)) (F64.roundMag 0 z.natAbs)

/-- `toF64(r)` of 00_scope.md R10 for an integer `r`; `toF64(0)` is +0.0. -/
def F64.ofInt (r : Int) : Word := F64.ofScaled (r * F64.oneUnits)

/-- `toF64(k * 2^-32)` (42_alea.md R107, 41_mash.md R96). -/
def F64.ofQ32 (k : Int) : Word := F64.ofScaled (k * F64.q32Units)

/-- The negation of a binary64: the sign bit flipped. -/
def F64.neg (b : Word) : Word := b ^^^ 0x8000000000000000

/-- A quiet NaN whose sign and payload are free (log entry 7). -/
def F64.nan (op : FloatOp) (a b : Word) : Word := Config.nanBits op a b ||| 0x7FF8000000000000

/-! ### The operations of 00_scope.md R10 -/

/-- The IEEE-754 sum of `a` and `b'`. A NaN result is that of the operation `op` on `a` and `b` (`b'` is `b`, or its
negation for a subtraction). The sum of opposite infinities is a NaN; an exact zero sum is +0.0 unless both operands are
negative zeros. -/
def F64.sum (op : FloatOp) (a b b' : Word) : Word :=
  if F64.isNaN a || F64.isNaN b' then F64.nan op a b
  else if F64.isInf a && F64.isInf b' then (if F64.sign a == F64.sign b' then a else F64.nan op a b)
  else if F64.isInf a then a
  else if F64.isInf b' then b'
  else
    let z := F64.scaled a + F64.scaled b'
    F64.pack (if z = 0 then F64.sign a && F64.sign b' else decide (z < 0)) (F64.roundMag 0 z.natAbs)

/-- `fadd(a, b)`: binary64 addition, rounded once to nearest, ties to even. -/
def F64.fadd (a b : Word) : Word := F64.sum .add a b b

/-- `fsub(a, b)`: binary64 subtraction, rounded once to nearest, ties to even. -/
def F64.fsub (a b : Word) : Word := F64.sum .sub a b (F64.neg b)

/-- `fmul(a, b)`: binary64 multiplication, rounded once to nearest, ties to even. The product of an infinity and a zero
is a NaN. -/
def F64.fmul (a b : Word) : Word :=
  let neg := F64.sign a ^^ F64.sign b
  if F64.isNaN a || F64.isNaN b then F64.nan .mul a b
  else if F64.isInf a || F64.isInf b then
    (if F64.mag a = 0 || F64.mag b = 0 then F64.nan .mul a b else F64.pack neg F64.infMag)
  else F64.pack neg (F64.roundMag 1074 (F64.mag a * F64.mag b))

/-! ### Constants (00_scope.md R8) -/

/-- `ACC_INIT`, 4022871197.0: the accumulator of a fresh Mash. -/
def accInit : Word := 0x41EDF90493A00000

/-- `E`, the Mash multiplier, the binary64 nearest to 0.02519603282416938. -/
def mashE : Word := 0x3F99CCFD23E00000

/-- `A`, 2091639.0: the multiplier of the Alea recurrence. -/
def aleaA : Word := 0x413FEA7700000000

/-- `TWO_M32`, 2^-32. -/
def twoM32 : Word := 0x3DF0000000000000

/-- `TWO_32`, 2^32. -/
def two32 : Word := 0x41F0000000000000

/-- `ONE`, 1.0. -/
def oneF64 : Word := 0x3FF0000000000000

/-- `SPACE`, the code unit of " ". -/
def spaceUnit : CodeUnit := 0x0020

end Sys2Proof.Machine
end

