-- ==== Sys2Proof/Machine/State.lean ====
section
/-!
DEFINITION. Everything the spec gives the machine, as plain data: the engine's registers (10_state.md R20), and the
host's side of a run as 70_reset_and_hazards.md R156 describes it (the accesses still to come, the values the reads
returned, the fault mark).
-/

namespace Sys2Proof.Machine

/-- STATUS.PHASE and STATUS.SIDX together (10_state.md R29 to R31). SIDX is 0 in IDLE, the index of the next word to
fold in SEEDING, and 3 in READY, so the pair is stored once and both fields are read from it (log entry 10). -/
inductive Phase where
  /-- PHASE = 0, SIDX = 0: before the first seeding. -/
  | idle
  /-- PHASE = 1, SIDX = k: `k` folds done since SEED_BEGIN. -/
  | seeding (k : Fin 3)
  /-- PHASE = 2, SIDX = 3: seeded. -/
  | ready
  deriving DecidableEq, Repr

/-- The error codes of 60_exceptions.md R126. Code 0, NONE, is the absence of one. -/
inductive ErrCode where
  /-- Code 1: the CMD value is illegal by 30_encoding.md R69. -/
  | illegalCmd
  /-- Code 2: RANDOM or UINT32 while PHASE is not READY. -/
  | notReady
  /-- Code 3: SEED_FOLD while PHASE is not SEEDING. -/
  | sequence
  /-- Code 4: TRUNC32 while DATA holds an infinity or a NaN. -/
  | domain
  deriving DecidableEq, Repr

/-- The engine's registers (10_state.md R20, R36: no other state exists). CMD holds no value between commands and reads
0 (R28), so it has no field; STATUS is its three fields, its other bits being hardwired 0 (R33). -/
structure Engine where
  /-- The Mash accumulator (R22). -/
  acc : Word
  /-- The first Alea state word (R23). -/
  s0 : Word
  /-- The second Alea state word (R23). -/
  s1 : Word
  /-- The third Alea state word, the most recent output (R23). -/
  s2 : Word
  /-- The carry (R24). -/
  x : Word
  /-- The operand register, written by the host (R26). -/
  data : Word
  /-- The result register (R27). -/
  result : Word
  /-- STATUS.PHASE and STATUS.SIDX (R30, R31). -/
  phase : Phase
  /-- STATUS.ERR: the first error since the last reset or CLRERR (R32). -/
  err : Option ErrCode
  deriving DecidableEq, Repr

/-- What can reach the engine from outside: a window access, from any bus master (20_memory.md R57, R63), or a reset. -/
inductive HostEvent where
  /-- `MemRead(off, width)` at a byte offset from WINDOW_BASE (00_scope.md R11). -/
  | read (off width : Nat)
  /-- `MemWrite(off, width, v)`: the bytes of `v` as they lie on the bus, lowest address first (20_memory.md R48). -/
  | write (off : Nat) (bytes : List Byte)
  /-- A reset between accesses: power-on, the platform's reset signal or a power loss (70_reset_and_hazards.md R145,
  60_exceptions.md R139). -/
  | reset
  /-- A reset that comes while the CMD write of `v` has not completed: the command is abandoned
  (70_reset_and_hazards.md R145). -/
  | resetDuringCmd (v : Word)
  deriving DecidableEq, Repr

/-- The machine: the engine and the host's side of the run. -/
structure State extends Engine where
  /-- The events still to reach the engine, in arrival order (70_reset_and_hazards.md R156; log entry 1). -/
  pending : List HostEvent
  /-- The values the reads returned, in order (70_reset_and_hazards.md R156). -/
  reads : List Word
  /-- The fault mark: an error has been raised in this run; nothing clears it (60_exceptions.md R140). -/
  faultMark : Bool
  /-- For each CMD write that a reset abandoned, in order, whether it completed on the bus (log entry 9). -/
  abandonedAcks : List Bool
  /-- How many free values have been drawn (the model's own field; log entry 9). -/
  freeCount : Nat
  deriving DecidableEq, Repr

/-- Why the bus refuses an access (20_memory.md R50, R51). The spec knows one BusError; the causes only say which of
its conditions was met first (log entry 17). -/
inductive BusErrorCause where
  /-- The access is not 8 bytes wide (20_memory.md R47). -/
  | width
  /-- The offset is not a multiple of 8 (20_memory.md R47). -/
  | misaligned
  /-- The offset is in the reserved range 0x48 to 0x7F (20_memory.md R46). -/
  | reserved
  /-- The offset is outside the 128-byte window (20_memory.md R45; log entry 4). -/
  | outside
  /-- A write to a register that 20_memory.md R46 marks BusError on write. -/
  | readOnly
  deriving DecidableEq, Repr

/-- How a step can stop with a fault. -/
inductive Fault where
  /-- Raised by `serve` for a window access the spec refuses: 'The model gives the access no step' (60_exceptions.md
  R140, 70_reset_and_hazards.md R156). Safe: it is the spec's own outcome, and nothing is claimed of a later state
  (log entry 3). -/
  | busError (cause : BusErrorCause)
  deriving DecidableEq, Repr

/-- How a step can be refused. -/
inductive Refusal where
  /-- An instruction that has no meaning yet. No arm of `exec` answers with it. Safe. -/
  | notModelled (mnemonic : String)
  /-- Raised by `servePlatform` only, for a bus access that no engine's window holds: the engine fixes nothing of the
  host's address map outside its window (20_memory.md R55). Safe (log entry 15). -/
  | noWindow
  deriving DecidableEq, Repr

/-- The engine's registers after reset (10_state.md R37, 70_reset_and_hazards.md R145). -/
def Engine.reset : Engine where
  acc := 0x41EDF90493A00000
  s0 := 0
  s1 := 0
  s2 := 0
  x := 0
  data := 0
  result := 0
  phase := .idle
  err := none

/-- The machine right after reset: the registers of 10_state.md R37, no access waiting, nothing read, no fault
(log entry 11). -/
def State.reset : State where
  toEngine := Engine.reset
  pending := []
  reads := []
  faultMark := false
  abandonedAcks := []
  freeCount := 0

end Sys2Proof.Machine
end

