-- ==== Sys2Proof/Machine/Ops.lean ====
section
/-!
DEFINITION. The named operations on the state: one writer per register, the raising of an error (the engine's only
exception, 60_exceptions.md R127) and its clearing, and what a reset and a read do to the run.
-/

namespace Sys2Proof.Machine

/-! ### Register writes -/

/-- ACC <- v. -/
def writeAcc (v : Word) (s : State) : State := { s with acc := v }

/-- DATA <- v. -/
def writeData (v : Word) (s : State) : State := { s with data := v }

/-- RESULT <- v. -/
def writeResult (v : Word) (s : State) : State := { s with result := v }

/-- (S0, S1, S2, X) <- (v0, v1, v2, vx). -/
def writeAlea (v0 v1 v2 vx : Word) (s : State) : State := { s with s0 := v0, s1 := v1, s2 := v2, x := vx }

/-- PHASE and SIDX <- p. -/
def writePhase (p : Phase) (s : State) : State := { s with phase := p }

/-- `S[k] <- v` (42_alea.md R102): the one indexed register access of the engine (10_state.md R25). -/
def writeWord (k : Fin 3) (v : Word) (s : State) : State :=
  match k with
  | 0 => { s with s0 := v }
  | 1 => { s with s1 := v }
  | 2 => { s with s2 := v }

/-! ### Errors -/

/-- `raise Error(code)` (60_exceptions.md R127): ERR keeps its first code and no other register changes. The model's
fault mark is set and stays set (R140). -/
def raiseError (c : ErrCode) (s : State) : State :=
  { s with err := (if s.err = none then some c else s.err), faultMark := true }

/-- STATUS.ERR <- 0 (43_system.md R120). The fault mark stays (60_exceptions.md R140). -/
def clearError (s : State) : State := { s with err := none }

/-- `require(ok) else Error(code)` (00_scope.md R11): the command ends in `done s`, or it raises `code` and makes none
of its writes. -/
def require (ok : Bool) (c : ErrCode) (done : State) (s : State) : Host.Outcome State Fault Refusal :=
  if ok then .next done else .next (raiseError c s)

/-! ### The run -/

/-- The events still to come are `q`. -/
def withPending (q : List HostEvent) (s : State) : State := { s with pending := q }

/-- The host has read `v` (70_reset_and_hazards.md R156). -/
def recordRead (v : Word) (s : State) : State := { s with reads := s.reads ++ [v] }

/-- The reset event (70_reset_and_hazards.md R145): every register takes its reset value. What the host has already
seen, what it has still to do and the fault mark are not engine state and stay (log entry 5). -/
def resetEngine (s : State) : State := { s with toEngine := Engine.reset }

/-- An abandoned CMD write completes on the bus or not, 'as the platform decides' (70_reset_and_hazards.md R145): a free
value, one more drawn (log entry 9). -/
def recordAbandoned (s : State) : State :=
  { s with abandonedAcks := s.abandonedAcks ++ [Config.abandonedCompletes s.freeCount], freeCount := s.freeCount + 1 }

/-- The state an outcome goes on in, if it does. -/
def nextState? (o : Host.Outcome State Fault Refusal) : Option State :=
  match o with
  | .next s => some s
  | .fault _ => none
  | .refused _ => none

end Sys2Proof.Machine
end

