-- ==== Sys2Proof/Machine/Int32.lean ====
section
/-!
DEFINITION. The int32 truncation unit (40_int32.md): `Int32Emu` by its definition R80, the bit-level algorithm R84
that must equal it, and TRUNC32 (R85).
-/

namespace Sys2Proof.Machine

/-- `toSigned32(m)` for m in [0, 2^32) (00_scope.md R9). -/
def toSigned32 (m : Int) : Int := if m < 2 ^ 31 then m else m - 2 ^ 32

/-- The integer `Int32Emu` of a finite binary64 denotes: the low 32 bits of its integer part, signed (40_int32.md R80;
over the unbounded integer, 90_conflicts.md C1). -/
def int32Of (v : Word) : Int := toSigned32 (F64.truncVal v % 2 ^ 32)

/-- `Int32Emu` (40_int32.md R80). For a NaN or an infinity the spec gives no value: a free value (log entry 6). -/
def int32Emu (v : Word) : Word :=
  if F64.isFinite v then F64.ofInt (int32Of v) else Config.int32NonFinite v

/-- `Int32EmuBits`, the bit-level algorithm of 40_int32.md R84, for a finite `b`. -/
def int32EmuBits (b : Word) : Word :=
  let ex := F64.expField b
  let sig := 2 ^ 52 + F64.fraction b
  let m : Nat :=
    if ex < 1023 then 0
    else if 1075 ≤ ex then sig * 2 ^ (ex - 1075) % 2 ^ 32
    else sig / 2 ^ (1075 - ex) % 2 ^ 32
  F64.ofInt (toSigned32 (if F64.sign b then (2 ^ 32 - m) % 2 ^ 32 else m : Nat))

/-- TRUNC32 (40_int32.md R85): DOMAIN if DATA is not finite, else RESULT <- Int32Emu(DATA). -/
def execTrunc32 (s : State) : Host.Outcome State Fault Refusal :=
  require (F64.isFinite s.data) .domain (writeResult (int32Emu s.data) s) s

end Sys2Proof.Machine
end

