-- ==== Sys2Proof/Machine/Operands.lean ====
section
/-!
DEFINITION. The operand forms of the commands (30_encoding.md R67, 10_state.md R25, R26): the code unit, the indexed
state word, and the result forms of RESULT (10_state.md R27).
-/

namespace Sys2Proof.Machine

/-- `toF64(cu)` of 41_mash.md R90: the code unit, zero-extended, as a number. -/
def codeUnitF64 (cu : CodeUnit) : Word := F64.ofInt cu.toNat

/-- `S[k]`, the state word SIDX selects: S0, S1 or S2 (42_alea.md R102). -/
def readWord (k : Fin 3) (e : Engine) : Word :=
  match k with
  | 0 => e.s0
  | 1 => e.s1
  | 2 => e.s2

/-- `zext_64(u)` of a 32-bit result (10_state.md R27). -/
def zextResult (u : BitVec 32) : Word := u.setWidth 64

end Sys2Proof.Machine
end

