-- ==== Sys2Proof/Machine/Mash.lean ====
section
/-!
DEFINITION. The Mash accumulator (41_mash.md): the functions of R90 and R91 and the commands MASH_INIT, MASH_STEP and
MASH_OUT (R92 to R94). They are legal in every phase.
-/

namespace Sys2Proof.Machine

/-- `MashStep(acc, cu)` (41_mash.md R90), operation by operation, each rounded once. -/
def mashStep (acc : Word) (cu : CodeUnit) : Word :=
  let a := F64.fadd acc (codeUnitF64 cu)
  let h := F64.fmul mashE a
  let n := int32Emu h
  let f := F64.fsub h n
  let t := F64.fmul f n
  let it := int32Emu t
  F64.fadd (F64.fmul two32 (F64.fsub t it)) it

/-- `MashOut(acc)` (41_mash.md R91): the hash value. -/
def mashOut (acc : Word) : Word := F64.fmul (int32Emu acc) twoM32

/-- MASH_INIT (41_mash.md R92): ACC <- ACC_INIT. -/
def execMashInit (s : State) : Host.Outcome State Fault Refusal := .next (writeAcc accInit s)

/-- MASH_STEP (41_mash.md R93): ACC <- MashStep(ACC, cu). -/
def execMashStep (cu : CodeUnit) (s : State) : Host.Outcome State Fault Refusal :=
  .next (writeAcc (mashStep s.acc cu) s)

/-- MASH_OUT (41_mash.md R94): RESULT <- MashOut(ACC); ACC does not change (R98). -/
def execMashOut (s : State) : Host.Outcome State Fault Refusal := .next (writeResult (mashOut s.acc) s)

end Sys2Proof.Machine
end

