-- ==== Sys2Proof/Machine/Alea.lean ====
section
/-!
DEFINITION. The Alea engine (42_alea.md): the multiply-with-carry step R100, seeding (SEED_BEGIN R101, SEED_FOLD R102)
and generation (RANDOM R104, UINT32 R105).
-/

namespace Sys2Proof.Machine

/-- The sum `y` of the recurrence (42_alea.md R100): two products and a sum, each rounded once, none fused. -/
def aleaY (s0 x : Word) : Word := F64.fadd (F64.fmul x twoM32) (F64.fmul s0 aleaA)

/-- `AleaStep` on the state words and the carry of `s` (42_alea.md R100): the words rotate, X takes the integer part and
S2 the fractional remainder. -/
def aleaStep (s : State) : State :=
  let y := aleaY s.s0 s.x
  let x' := int32Emu y
  writeAlea s.s1 s.s2 (F64.fsub y x') x' s

/-- SEED_BEGIN (42_alea.md R101): a fresh Mash, three hashes of a space into S0, S1 and S2, X <- 1.0, PHASE <- SEEDING,
SIDX <- 0, in every phase. -/
def execSeedBegin (s : State) : Host.Outcome State Fault Refusal :=
  let a1 := mashStep accInit spaceUnit
  let a2 := mashStep a1 spaceUnit
  let a3 := mashStep a2 spaceUnit
  .next (writePhase (.seeding 0) (writeAlea (mashOut a1) (mashOut a2) (mashOut a3) oneF64 (writeAcc a3 s)))

/-- The word a fold leaves (42_alea.md R102): the difference of the word and the hash, plus 1.0 if it is negative. -/
def foldWord (word hash : Word) : Word :=
  let d := F64.fsub word hash
  if F64.lt0 d then F64.fadd d oneF64 else d

/-- PHASE and SIDX after the fold of the word `k` (42_alea.md R102, 10_state.md R30). -/
def phaseAfterFold (k : Fin 3) : Phase :=
  match k with
  | 0 => .seeding 1
  | 1 => .seeding 2
  | 2 => .ready

/-- SEED_FOLD (42_alea.md R102): outside SEEDING it raises SEQUENCE; in SEEDING it folds the hash of ACC into the word
that SIDX selects and moves on. -/
def execSeedFold (s : State) : Host.Outcome State Fault Refusal :=
  match s.phase with
  | .seeding k =>
    .next (writePhase (phaseAfterFold k) (writeWord k (foldWord (readWord k s.toEngine) (mashOut s.acc)) s))
  | .idle => .next (raiseError .sequence s)
  | .ready => .next (raiseError .sequence s)

/-- RANDOM (42_alea.md R104): NOT_READY outside READY, else one step of the recurrence and RESULT <- S2. -/
def execRandom (s : State) : Host.Outcome State Fault Refusal :=
  let t := aleaStep s
  require (s.phase == .ready) .notReady (writeResult t.s2 t) s

/-- `u = floor(val(fmul(S2, TWO_32)))` of 42_alea.md R105. The spec states the result for u in [0, 2^32); for any other
value the 32-bit result is free (log entry 8). -/
def uint32Of (s2 : Word) : BitVec 32 :=
  let p := F64.fmul s2 two32
  let u := F64.floorVal p
  if F64.isFinite p && decide (0 ≤ u) && decide (u < 2 ^ 32) then BitVec.ofInt 32 u else Config.uint32OutOfRange s2

/-- UINT32 (42_alea.md R105): NOT_READY outside READY, else the same step as RANDOM and RESULT <- zext_64(u). -/
def execUint32 (s : State) : Host.Outcome State Fault Refusal :=
  let t := aleaStep s
  require (s.phase == .ready) .notReady (writeResult (zextResult (uint32Of t.s2)) t) s

end Sys2Proof.Machine
end

