-- ==== Sys2Proof/Machine/System.lean ====
section
/-!
DEFINITION. The system command CLRERR (43_system.md R120).
-/

namespace Sys2Proof.Machine

/-- CLRERR (43_system.md R120): STATUS.ERR <- 0, in every phase. -/
def execClrErr (s : State) : Host.Outcome State Fault Refusal := .next (clearError s)

end Sys2Proof.Machine
end

