-- ==== Sys2Proof/Machine/Dispatch.lean ====
section
/-!
DEFINITION. The dispatch of 30_encoding.md R72 on a decoded command: one arm per constructor of `Instr`.
-/

namespace Sys2Proof.Machine

def exec (i : Instr) (s : State) : Host.Outcome State Fault Refusal :=
  match i with
  | .mashInit => Sys2Proof.Machine.execMashInit s
  | .mashStep cu => Sys2Proof.Machine.execMashStep cu s
  | .mashOut => Sys2Proof.Machine.execMashOut s
  | .trunc32 => Sys2Proof.Machine.execTrunc32 s
  | .seedBegin => Sys2Proof.Machine.execSeedBegin s
  | .seedFold => Sys2Proof.Machine.execSeedFold s
  | .random => Sys2Proof.Machine.execRandom s
  | .uint32 => Sys2Proof.Machine.execUint32 s
  | .clrErr => Sys2Proof.Machine.execClrErr s

end Sys2Proof.Machine
end

