-- ==== Sys2Proof/Machine/Flags.lean ====
section
/-!
DEFINITION. STATUS (10_state.md R29): how its fields read as bits. These are the engine's only flags (R35).
-/

namespace Sys2Proof.Machine

/-- STATUS.PHASE, bits 1:0: 0 = IDLE, 1 = SEEDING, 2 = READY. -/
def phaseField (p : Phase) : BitVec 2 :=
  match p with
  | .idle => 0
  | .seeding _ => 1
  | .ready => 2

/-- STATUS.SIDX, bits 3:2 (10_state.md R31): the folds done since SEED_BEGIN. -/
def sidxField (p : Phase) : BitVec 2 :=
  match p with
  | .idle => 0
  | .seeding k => BitVec.ofNat 2 k.val
  | .ready => 3

/-- STATUS.ERR, bits 11:8 (60_exceptions.md R126). -/
def errField (e : Option ErrCode) : BitVec 4 :=
  match e with
  | none => 0
  | some .illegalCmd => 1
  | some .notReady => 2
  | some .sequence => 3
  | some .domain => 4

/-- The 32-bit STATUS register, its reserved bits 0 (10_state.md R29, R33). -/
def statusBits (p : Phase) (e : Option ErrCode) : BitVec 32 :=
  0#20 ++ errField e ++ 0#4 ++ sidxField p ++ phaseField p

/-- STATUS as a window read returns it, zero-extended to 64 bits (20_memory.md R46). -/
def statusWord (e : Engine) : Word := (statusBits e.phase e.err).setWidth 64

end Sys2Proof.Machine
end

