-- ==== Sys2Proof/Machine/Window.lean ====
section
/-!
DEFINITION. The register window (20_memory.md): its map, what a read returns, what a write does, when the bus refuses
an access, and the service of one event.
-/

namespace Sys2Proof.Machine

/-- The nine registers of the window (20_memory.md R46). -/
inductive WindowReg where
  | cmd
  | data
  | result
  | status
  | acc
  | s0
  | s1
  | s2
  | x
  deriving DecidableEq, Repr

/-- `WINDOW_SIZE` (00_scope.md R7). -/
def windowSize : Nat := 128

/-- The offset of each register (20_memory.md R46). -/
def offsetOf (r : WindowReg) : Nat :=
  match r with
  | .cmd => 0x00
  | .data => 0x08
  | .result => 0x10
  | .status => 0x18
  | .acc => 0x20
  | .s0 => 0x28
  | .s1 => 0x30
  | .s2 => 0x38
  | .x => 0x40

/-- The register at an offset, if the window has one there (20_memory.md R46). -/
def regAt (off : Nat) : Option WindowReg :=
  match off with
  | 0x00 => some .cmd
  | 0x08 => some .data
  | 0x10 => some .result
  | 0x18 => some .status
  | 0x20 => some .acc
  | 0x28 => some .s0
  | 0x30 => some .s1
  | 0x38 => some .s2
  | 0x40 => some .x
  | _ => none

/-- What a read of a register returns (20_memory.md R46). CMD reads 0 (10_state.md R28). -/
def readReg (r : WindowReg) (e : Engine) : Word :=
  match r with
  | .cmd => 0
  | .data => e.data
  | .result => e.result
  | .status => statusWord e
  | .acc => e.acc
  | .s0 => e.s0
  | .s1 => e.s1
  | .s2 => e.s2
  | .x => e.x

/-- The byte that an 8-byte read delivers at the window offset `off`, if a register lies there (20_memory.md R48). -/
def windowByte (off : Nat) (e : Engine) : Option Byte :=
  (regAt (off - off % 8)).map fun r => (readReg r e).extractLsb' (8 * (off % 8)) 8

/-- The register an access of `width` bytes at `off` reaches, or why the bus refuses it (20_memory.md R47, R50). -/
def accessReg (off width : Nat) : Except BusErrorCause WindowReg :=
  if width ≠ 8 then .error .width
  else if off % 8 ≠ 0 then .error .misaligned
  else
    match regAt off with
    | some r => .ok r
    | none => .error (if off < windowSize then .reserved else .outside)

/-- `Execute(v)`, what every CMD write runs (30_encoding.md R72): a legal value executes its command, an illegal one
raises ILLEGAL_CMD (43_system.md R121). -/
def executeCmd (v : Word) (s : State) : Host.Outcome State Fault Refusal :=
  match decodeCmd v with
  | .ok i => exec i s
  | .error _ => .next (raiseError .illegalCmd s)

/-- `MemRead(off, width)` (20_memory.md R49, R50): the register's value is returned and no register changes. -/
def serveRead (off width : Nat) (s : State) : Host.Outcome State Fault Refusal :=
  match accessReg off width with
  | .ok r => .next (recordRead (readReg r s.toEngine) s)
  | .error c => .fault (.busError c)

/-- `MemWrite(off, 8, v)` (20_memory.md R51): DATA takes the value, CMD executes it, every other register is refused. -/
def serveWrite (off : Nat) (bytes : List Byte) (s : State) : Host.Outcome State Fault Refusal :=
  match accessReg off bytes.length with
  | .ok .cmd => executeCmd (wordOfBytes bytes) s
  | .ok .data => .next (writeData (wordOfBytes bytes) s)
  | .ok _ => .fault (.busError .readOnly)
  | .error c => .fault (.busError c)

/-- The service of one event, as one atomic step (20_memory.md R57, R58; 70_reset_and_hazards.md R145). -/
def serve (ev : HostEvent) (s : State) : Host.Outcome State Fault Refusal :=
  match ev with
  | .read off width => serveRead off width s
  | .write off bytes => serveWrite off bytes s
  | .reset => .next (resetEngine s)
  | .resetDuringCmd _ => .next (recordAbandoned (resetEngine s))

/-- The event at the head of the queue reaches the engine. With none waiting the engine waits: it 'executes nothing on
its own' (70_reset_and_hazards.md R146; log entry 2). -/
def serveNext (s : State) : Host.Outcome State Fault Refusal :=
  match s.pending with
  | [] => .next s
  | ev :: rest => serve ev (withPending rest s)

/-- The CMD write that issues the table word `w` of `nbits` bits, put before every waiting event (log entry 1). -/
def issueTableWord (nbits w : Nat) (s : State) : State :=
  withPending (.write 0x00 (bytesOfWord (BitVec.ofNat 64 (w % 2 ^ min nbits 64))) :: s.pending) s

end Sys2Proof.Machine
end

