-- ==== Sys2Proof/Machine/Step.lean ====
section
/-!
DEFINITION. One step of the machine: the next event reaches the engine (20_memory.md R57).
-/

namespace Sys2Proof.Machine

/-- One step: the service of the next event. -/
def step (s : State) : Host.Outcome State Fault Refusal := serveNext s

/-- `s` with the command of the table word `w` as the next thing that reaches the engine: a CMD write of that word at
the head of the queue (log entry 1). -/
def State.withFetchWord (s : State) (nbits w : Nat) : State := issueTableWord nbits w s

end Sys2Proof.Machine
end

