-- ==== Sys2Proof/Machine/Platform.lean ====
section
/-!
DEFINITION. A platform of several engines (60_exceptions.md R137): `N_INSTANCES` engines, each with its own window at
its own `WINDOW_BASE` (00_scope.md R7, both open: here they are data). A bus access at a host address reaches the engine
whose window holds it, at the byte offset from that window's base (20_memory.md R45).
-/

namespace Sys2Proof.Machine

/-- One engine of a platform and where its window sits. -/
structure Slot where
  /-- `WINDOW_BASE` of this engine. -/
  base : Nat
  /-- The engine and its run. -/
  engine : State
  deriving DecidableEq, Repr

/-- An access at a host address, or the reset signal of the engine with that index ('Each engine starts from reset on
its own', 60_exceptions.md R137). -/
inductive BusEvent where
  | read (addr width : Nat)
  | write (addr : Nat) (bytes : List Byte)
  | reset (index : Nat)
  deriving DecidableEq, Repr

/-- The window of the slot holds the host address (20_memory.md R45). -/
def holdsAddr (sl : Slot) (addr : Nat) : Bool := decide (sl.base ≤ addr) && decide (addr < sl.base + windowSize)

/-- The index of the first slot whose window holds the address. Windows are disjoint on a real platform, so it is the
only one (log entry 15). -/
def locate (p : List Slot) (addr : Nat) : Option Nat := p.findIdx? fun sl => holdsAddr sl addr

/-- Which engine a bus event goes to, and what that engine sees of it: the byte offset in place of the address. -/
def route (p : List Slot) (ev : BusEvent) : Option (Nat × HostEvent) :=
  match ev with
  | .read addr width =>
    (locate p addr).bind fun i => (p[i]?).map fun sl => (i, HostEvent.read (addr - sl.base) width)
  | .write addr bytes =>
    (locate p addr).bind fun i => (p[i]?).map fun sl => (i, HostEvent.write (addr - sl.base) bytes)
  | .reset i => (p[i]?).map fun _ => (i, HostEvent.reset)

/-- The platform serves one bus event: one engine takes a step and the others keep their state (60_exceptions.md R137).
An event that no engine's window holds is none of the engines' (20_memory.md R55): refused by name. -/
def servePlatform (ev : BusEvent) (p : List Slot) : Host.Outcome (List Slot) Fault Refusal :=
  match route p ev with
  | none => .refused .noWindow
  | some (i, ev') =>
    match p[i]? with
    | none => .refused .noWindow
    | some sl =>
      match serve ev' sl.engine with
      | .next t => .next (p.set i { sl with engine := t })
      | .fault f => .fault f
      | .refused r => .refused r

end Sys2Proof.Machine
end

