-- ==== Sys2Proof/Machine/HostProgram.lean ====
section
/-!
DEFINITION. Host programs (30_encoding.md R73 to R75): the statements, their expansion into window accesses, and a run
with its end (70_reset_and_hazards.md R156). A text is the list of its UTF-16 code units: making that list of a host
string is the host's job (00_scope.md R5, log entry 12).
-/

namespace Sys2Proof.Machine

/-- A statement of a host program (30_encoding.md R73) or a pseudo-instruction (R74). -/
inductive Stmt where
  /-- One command, by its mnemonic. -/
  | command (i : Instr)
  /-- `WR DATA, w`. -/
  | wrData (w : Word)
  /-- `RD r`. -/
  | rd (r : WindowReg)
  /-- `CMD w`: a raw CMD value, possibly illegal. -/
  | rawCmd (w : Word)
  /-- `WRF DATA, d`, the binary64 `d` given by its bits. -/
  | wrf (d : Word)
  /-- `TRUNC d`. -/
  | trunc (d : Word)
  /-- `HASH "t"`. -/
  | hash (t : List CodeUnit)
  /-- `MASH "t"`. -/
  | mash (t : List CodeUnit)
  /-- `SEED "t"`. -/
  | seed (t : List CodeUnit)
  deriving DecidableEq, Repr

/-- `MemWrite(0x00, 8, v)`: the CMD write of a 64-bit value. -/
def cmdWrite (v : Word) : HostEvent := .write 0x00 (bytesOfWord v)

/-- `MemWrite(0x08, 8, w)`: the DATA write. -/
def dataWrite (w : Word) : HostEvent := .write 0x08 (bytesOfWord w)

/-- The CMD write of a command (30_encoding.md R73). -/
def issue (i : Instr) : HostEvent := cmdWrite (encode i)

/-- `HASH "t"`: one MASH_STEP for each code unit, in order; nothing if `t` is empty (30_encoding.md R74). -/
def hashEvents (t : List CodeUnit) : List HostEvent := t.map fun u => issue (.mashStep u)

/-- The accesses a statement expands to, in order (30_encoding.md R73, R74, R75). -/
def stmtEvents (p : Stmt) : List HostEvent :=
  match p with
  | .command i => [issue i]
  | .wrData w => [dataWrite w]
  | .rd r => [.read (offsetOf r) 8]
  | .rawCmd w => [cmdWrite w]
  | .wrf d => [dataWrite d]
  | .trunc d => [dataWrite d, issue .trunc32]
  | .hash t => hashEvents t
  | .mash t => hashEvents t ++ [issue .mashOut]
  | .seed t =>
    issue .seedBegin :: (hashEvents t ++ issue .seedFold :: (hashEvents t ++ issue .seedFold ::
      (hashEvents t ++ [issue .seedFold])))

/-- The accesses of a host program. -/
def programEvents (ps : List Stmt) : List HostEvent := ps.flatMap stmtEvents

/-- How a run ends (70_reset_and_hazards.md R156). -/
inductive RunEnd where
  /-- The last access has completed, in the state `s`. -/
  | completed (s : State)
  /-- The run stopped at an access that has no step; `s` is the state it met. -/
  | stopped (s : State) (f : Fault)
  /-- The model refused; no event of the engine does this. -/
  | refused (s : State) (r : Refusal)
  deriving DecidableEq, Repr

/-- The end state of a run. -/
def endState (r : RunEnd) : State :=
  match r with
  | .completed s => s
  | .stopped s _ => s
  | .refused s _ => s

/-- The engine serves the events in order, up to the first that has no step (70_reset_and_hazards.md R156). -/
def runEvents : List HostEvent → State → RunEnd
  | [], s => .completed s
  | ev :: rest, s =>
    match serve ev s with
    | .next t => runEvents rest t
    | .fault f => .stopped s f
    | .refused r => .refused s r

/-- The run of a host program from a state (70_reset_and_hazards.md R156), the reset state or another reachable one. The
start state's fault mark and read list are carried on: the end state's mark is set if it was set at the start, and the
program's reads follow those already there. R156 does not say what these two are when a run starts from another state
(DESIGN CHOICE, log entry 22). -/
def runProgram (ps : List Stmt) (s : State) : RunEnd := runEvents (programEvents ps) s

end Sys2Proof.Machine
end

