-- ==== Sys2Proof/Safety.lean ====
section
/-!
DEFINITION. What claims are stated in: when a run has faulted (60_exceptions.md R140), and the invariants of the
registers (41_mash.md R95, 42_alea.md R106, R107).
-/

namespace Sys2Proof.Machine

/-- The run has faulted: an error was raised in it, or it stopped at an access with no step (60_exceptions.md R140,
70_reset_and_hazards.md R156). -/
def faulted (r : RunEnd) : Bool :=
  match r with
  | .completed s => s.faultMark
  | .stopped _ _ => true
  | .refused _ _ => true

/-- The accumulator invariant (41_mash.md R95): finite, not -0.0, and 0 <= val(ACC) <= 2^32 + 2^31. -/
def AccInv (acc : Word) : Prop :=
  F64.isFinite acc = true ∧ acc ≠ 0x8000000000000000 ∧ 0 ≤ F64.val acc ∧ F64.val acc ≤ 2 ^ 32 + 2 ^ 31

/-- `w` is `toF64(k * 2^-32)` for an integer k in [0, 2^32) (42_alea.md R107). -/
def UnitWord (w : Word) : Prop := ∃ k : Nat, k < 2 ^ 32 ∧ w = F64.ofQ32 k

/-- `w` is `toF64(c)` for an integer c in [0, 2091639] (42_alea.md R107). -/
def CarryWord (w : Word) : Prop := ∃ c : Nat, c ≤ 2091639 ∧ w = F64.ofInt c

/-- The values SEED_BEGIN gives S0, S1 and S2 (42_alea.md R101, corner cases). -/
def seedBeginWord (j : Fin 3) : Word :=
  match j with
  | 0 => 0xBFC17E7017000000
  | 1 => 0x3FC3399F2E800000
  | 2 => 0xBFB511EBBD000000

/-- The seeding invariant (42_alea.md R106): the words below SIDX are folded, the others are SEED_BEGIN's, X is 1.0. -/
def SeedingInv (k : Fin 3) (e : Engine) : Prop :=
  e.x = 0x3FF0000000000000 ∧
    ∀ j : Fin 3, if j < k then UnitWord (readWord j e) else readWord j e = seedBeginWord j

/-- The READY invariant (42_alea.md R107). -/
def ReadyInv (e : Engine) : Prop := UnitWord e.s0 ∧ UnitWord e.s1 ∧ UnitWord e.s2 ∧ CarryWord e.x

/-- The Alea registers as the phase has them (42_alea.md R106, R107). -/
def AleaInv (e : Engine) : Prop :=
  match e.phase with
  | .idle => True
  | .seeding k => SeedingInv k e
  | .ready => ReadyInv e

/-- The invariant of the engine's registers. -/
def EngineInv (e : Engine) : Prop := AccInv e.acc ∧ AleaInv e

/-! ### The run's own part of the state -/

/-- `t` differs from `s` in engine registers and the fault mark at most: what the host has still to do and what it has
seen are the same. -/
def SameRun (s t : State) : Prop :=
  t.pending = s.pending ∧ t.reads = s.reads ∧ t.abandonedAcks = s.abandonedAcks ∧ t.freeCount = s.freeCount

/-- ERR set means that the run has faulted (60_exceptions.md R140). -/
def MarkInv (s : State) : Prop := s.err ≠ none → s.faultMark = true

/-! ### The source's operations (42_alea.md R110, 41_mash.md R97) -/

/-- `MashHash(state, text)`: the accumulator after the text and the hash value. -/
def mashHash (acc : Word) (t : List CodeUnit) : Word × Word := (t.foldl mashStep acc, mashOut (t.foldl mashStep acc))

/-- What a constructed generator holds. -/
structure AleaState where
  s0 : Word
  s1 : Word
  s2 : Word
  x : Word
  deriving DecidableEq, Repr

/-- `AleaNew(seed)`: a fresh Mash, three hashes of a space, then three hashes of the seed on the same Mash, each
subtracted from its word, with 1.0 added where the difference is negative; x is 1.0. -/
def aleaNew (seed : List CodeUnit) : AleaState :=
  let b0 := mashHash accInit [spaceUnit]
  let b1 := mashHash b0.1 [spaceUnit]
  let b2 := mashHash b1.1 [spaceUnit]
  let h0 := mashHash b2.1 seed
  let h1 := mashHash h0.1 seed
  let h2 := mashHash h1.1 seed
  { s0 := foldWord b0.2 h0.2, s1 := foldWord b1.2 h1.2, s2 := foldWord b2.2 h2.2, x := oneF64 }

/-- The step of `AleaStep` with plain truncation toward zero in place of `Int32Emu` (42_alea.md R114). -/
def plainStep (s : State) : State :=
  let y := aleaY s.s0 s.x
  let x' := F64.ofInt (F64.truncVal y)
  writeAlea s.s1 s.s2 (F64.fsub y x') x' s

end Sys2Proof.Machine
end

