-- ==== Sys2Proof/Certificates/Slice0/Obligations.lean ====
section
/-!
DEFINITION. The statements for the provers. Each docstring names the rule of spec/ it formalises. A next state is
written as an update of the state before, so that everything not named in it is stated to be unchanged.
-/

open Sys2Proof Sys2Proof.Machine

/-! ### Encoding (30_encoding.md) -/

/-- R68: the words of the nine commands, MASH_STEP's for every code unit. -/
def Obligations.OpcodeMapWords : Prop :=
  decodeCmd 0x0000000001000000 = .ok .mashInit ∧
  (∀ cu : CodeUnit, decodeCmd (0x0000000002000000 ||| cu.setWidth 64) = .ok (.mashStep cu)) ∧
  decodeCmd 0x0000000003000000 = .ok .mashOut ∧
  decodeCmd 0x0000000008000000 = .ok .trunc32 ∧
  decodeCmd 0x0000000010000000 = .ok .seedBegin ∧
  decodeCmd 0x0000000011000000 = .ok .seedFold ∧
  decodeCmd 0x0000000020000000 = .ok .random ∧
  decodeCmd 0x0000000021000000 = .ok .uint32 ∧
  decodeCmd 0x000000003F000000 = .ok .clrErr

/-- R66, R68: decoding an encoded well-formed command gives it back, and a word that decodes to a command is that
command's one encoding. -/
def Obligations.DecodeEncodeRoundTrip : Prop :=
  (∀ i : Instr, i.wellFormed = true → decodeCmd (encode i) = .ok i) ∧
  (∀ (v : Word) (i : Instr), decodeCmd v = .ok i → v = encode i)

/-- R71: every CMD value is either in exactly one row of the opcode map, and then decodes to that row's command, or is
illegal. -/
def Obligations.DecodingIsTotalAndUnambiguous : Prop :=
  ∀ v : Word,
    (∃ i : Instr, decodeCmd v = .ok i ∧
      ∀ n : Nat, (∃ row, opcodeRows[n]? = some row ∧ inRow v row = true) ↔ n = rowIndex i) ∨
    ((∃ c, decodeCmd v = .error c) ∧ ∀ row ∈ opcodeRows, inRow v row = false)

/-- R69: when a CMD value is illegal. -/
def Obligations.IllegalCommandConditions : Prop :=
  ∀ v : Word, (∃ c, decodeCmd v = .error c) ↔
    (v.extractLsb 63 32 ≠ 0 ∨ v.extractLsb 23 16 ≠ 0 ∨
      v.extractLsb 31 24 ∉ ([0x01, 0x02, 0x03, 0x08, 0x10, 0x11, 0x20, 0x21, 0x3F] : List (BitVec 8)) ∨
      (v.extractLsb 31 24 ≠ 0x02 ∧ v.extractLsb 15 0 ≠ 0))

/-! ### The step and the register window (20_memory.md) -/

/-- R51, R72: when the next access is an 8-byte write to CMD whose bytes decode to a command, the step is that command's
`exec`, on the state with the access taken off the queue. The queue of accesses is the model's choice (log entry 1). -/
def Obligations.StepRunsTheDecodedCommand : Prop :=
  ∀ (s : State) (bytes : List Byte) (rest : List HostEvent) (i : Instr),
    s.pending = .write 0x00 bytes :: rest → bytes.length = 8 → decodeCmd (wordOfBytes bytes) = .ok i →
      i.wellFormed = true → step s = exec i { s with pending := rest }

/-- R69, R121: a CMD value with HI or RSV not 0, an unassigned OPC, or IMM16 not 0 without MASH_STEP's OPC sets ERR to
ILLEGAL_CMD if it was 0 and changes no other register; the model's fault mark is set and the run goes on (R140; log
entry 18). -/
def Obligations.IllegalCommandRecordsOnlyTheError : Prop :=
  ∀ (s : State) (bytes : List Byte) (rest : List HostEvent) (v : Word),
    s.pending = .write 0x00 bytes :: rest → bytes.length = 8 → v = wordOfBytes bytes →
    (v.extractLsb 63 32 ≠ 0 ∨ v.extractLsb 23 16 ≠ 0 ∨
      v.extractLsb 31 24 ∉ ([0x01, 0x02, 0x03, 0x08, 0x10, 0x11, 0x20, 0x21, 0x3F] : List (BitVec 8)) ∨
      (v.extractLsb 31 24 ≠ 0x02 ∧ v.extractLsb 15 0 ≠ 0)) →
      step s = .next { s with pending := rest, err := (if s.err = none then some .illegalCmd else s.err), faultMark := true }

/-- R46, R49: an admitted read returns the register the window map gives for its offset and changes no register. -/
def Obligations.ReadReturnsTheMappedRegister : Prop :=
  ∀ (s : State) (rest : List HostEvent),
    ∀ p ∈ [(0x00, (0 : Word)), (0x08, s.data), (0x10, s.result), (0x18, statusWord s.toEngine), (0x20, s.acc),
        (0x28, s.s0), (0x30, s.s1), (0x38, s.s2), (0x40, s.x)],
      s.pending = .read p.1 8 :: rest → step s = .next { s with pending := rest, reads := s.reads ++ [p.2] }

/-- R48, R51: a DATA write carries its value with bits 8i+7 to 8i in the byte at offset i, and sets DATA to it. -/
def Obligations.DataWriteIsLittleEndian : Prop :=
  ∀ (s : State) (rest : List HostEvent) (v : Word),
    s.pending = .write 0x08 [v.extractLsb 7 0, v.extractLsb 15 8, v.extractLsb 23 16, v.extractLsb 31 24,
      v.extractLsb 39 32, v.extractLsb 47 40, v.extractLsb 55 48, v.extractLsb 63 56] :: rest →
      step s = .next { s with pending := rest, data := v }

/-- R48, R54: the window as bytes: a DATA write leaves each of its bytes where a read of DATA gives it back, and every
byte of the window outside DATA as it was. -/
def Obligations.DataWriteChangesItsBytesOnly : Prop :=
  ∀ (s : State) (bytes : List Byte) (rest : List HostEvent),
    s.pending = .write 0x08 bytes :: rest → bytes.length = 8 → ∃ t : State, step s = .next t ∧
      (∀ i, i < 8 → windowByte (0x08 + i) t.toEngine = bytes[i]?) ∧
      ∀ off, off < 0x08 ∨ 0x10 ≤ off → windowByte off t.toEngine = windowByte off s.toEngine

/-- R146: with no access waiting the engine executes nothing on its own: the step changes nothing (log entry 2, a
design choice). -/
def Obligations.EngineWaitsForAccesses : Prop := ∀ s : State, s.pending = [] → step s = .next s

/-- R47, R50, R51: at every offset, an access is a BusError when its width or alignment is refused, no register lies at
its offset, or it writes a register that is neither CMD nor DATA; then the step is a fault and gives no state (log entry
3). Every other access has its step. That a read outside the window, at an offset of 0x80 or more, is a BusError too is
the model's choice (log entry 4); of writes R51 says it. -/
def Obligations.BusErrorConditions : Prop :=
  ∀ (s : State) (off : Nat) (rest : List HostEvent),
    (∀ width, s.pending = .read off width :: rest →
      if width ≠ 8 ∨ off % 8 ≠ 0 ∨ 0x48 ≤ off then ∃ c, step s = .fault (.busError c) else ∃ t, step s = .next t) ∧
    (∀ bytes, s.pending = .write off bytes :: rest →
      if bytes.length ≠ 8 ∨ off % 8 ≠ 0 ∨ (off ≠ 0x00 ∧ off ≠ 0x08) then ∃ c, step s = .fault (.busError c)
      else ∃ t, step s = .next t)

/-- R29, R31, R33, R126: the fields of STATUS as a read gives them: PHASE, SIDX (the next word to fold in SEEDING, 3 in
READY, 0 in IDLE), ERR's code, and zeros everywhere else. -/
def Obligations.StatusFieldsReadAsLaidOut : Prop :=
  ∀ e : Engine,
    (statusWord e).extractLsb 7 4 = 0 ∧ (statusWord e).extractLsb 31 12 = 0 ∧ (statusWord e).extractLsb 63 32 = 0 ∧
    (statusWord e).extractLsb 1 0 ≠ 3 ∧ ((statusWord e).extractLsb 11 8).toNat ≤ 4 ∧
    ((statusWord e).extractLsb 1 0 = 0 ↔ e.phase = .idle) ∧
    ((statusWord e).extractLsb 1 0 = 1 ↔ ∃ k, e.phase = .seeding k) ∧
    ((statusWord e).extractLsb 1 0 = 2 ↔ e.phase = .ready) ∧
    (e.phase = .idle → (statusWord e).extractLsb 3 2 = 0) ∧
    (∀ k : Fin 3, e.phase = .seeding k → ((statusWord e).extractLsb 3 2).toNat = k.val) ∧
    (e.phase = .ready → (statusWord e).extractLsb 3 2 = 3) ∧
    ((statusWord e).extractLsb 11 8 = 0 ↔ e.err = none) ∧
    ((statusWord e).extractLsb 11 8 = 1 ↔ e.err = some .illegalCmd) ∧
    ((statusWord e).extractLsb 11 8 = 2 ↔ e.err = some .notReady) ∧
    ((statusWord e).extractLsb 11 8 = 3 ↔ e.err = some .sequence) ∧
    ((statusWord e).extractLsb 11 8 = 4 ↔ e.err = some .domain)

/-- R36, R138: the host can read all of the engine's state: two engines that read alike at all nine registers are the
same. -/
def Obligations.ReadsShowTheWholeEngine : Prop :=
  ∀ e e' : Engine, (∀ r : WindowReg, readReg r e = readReg r e') → e = e'

/-! ### Reset (70_reset_and_hazards.md) -/

/-- R37: the values a read of each register gives right after reset. -/
def Obligations.ResetValues : Prop :=
  readReg .acc State.reset.toEngine = 0x41EDF90493A00000 ∧ readReg .s0 State.reset.toEngine = 0 ∧
  readReg .s1 State.reset.toEngine = 0 ∧ readReg .s2 State.reset.toEngine = 0 ∧
  readReg .x State.reset.toEngine = 0 ∧ readReg .data State.reset.toEngine = 0 ∧
  readReg .result State.reset.toEngine = 0 ∧ readReg .status State.reset.toEngine = 0 ∧
  readReg .cmd State.reset.toEngine = 0

/-- R145: a reset gives every register its reset value, whatever the state before, also when it abandons a CMD write:
none of that command's writes is made, and the write completes on the bus or not, as a free value says (log entry 9).
What the host has seen and the fault mark stay (log entry 5). -/
def Obligations.ResetEventGivesResetRegisters : Prop :=
  ∀ (s : State) (rest : List HostEvent),
    (s.pending = .reset :: rest → step s = .next { s with toEngine := State.reset.toEngine, pending := rest }) ∧
    (∀ v, s.pending = .resetDuringCmd v :: rest → ∃ t b, step s = .next t ∧
      t.toEngine = State.reset.toEngine ∧ t.pending = rest ∧ t.reads = s.reads ∧ t.faultMark = s.faultMark ∧
      t.abandonedAcks = s.abandonedAcks ++ [b])

/-! ### Errors (60_exceptions.md) -/

/-- R126, R127: the failing commands raise their codes, write nothing else, and the first code sticks; the model's fault
mark is set and the run goes on (log entry 18). -/
def Obligations.FailingCommandsWriteOnlyErr : Prop :=
  ∀ s : State,
    (s.phase ≠ .ready →
      exec .random s = .next { s with err := (if s.err = none then some .notReady else s.err), faultMark := true } ∧
      exec .uint32 s = .next { s with err := (if s.err = none then some .notReady else s.err), faultMark := true }) ∧
    ((∀ k, s.phase ≠ .seeding k) →
      exec .seedFold s = .next { s with err := (if s.err = none then some .sequence else s.err), faultMark := true }) ∧
    (s.data.extractLsb 62 52 = 0x7FF →
      exec .trunc32 s = .next { s with err := (if s.err = none then some .domain else s.err), faultMark := true })

/-- R126, R127: a command that meets its conditions raises nothing: ERR (but for CLRERR) and the fault mark are as
before. -/
def Obligations.CompletingCommandsRaiseNothing : Prop :=
  ∀ (i : Instr) (s : State),
    ((i = .random ∨ i = .uint32) → s.phase = .ready) → (i = .seedFold → ∃ k, s.phase = .seeding k) →
    (i = .trunc32 → s.data.extractLsb 62 52 ≠ 0x7FF) →
      ∃ t, exec i s = .next t ∧ t.faultMark = s.faultMark ∧ (i ≠ .clrErr → t.err = s.err)

/-- R127, R131: errors do not block: whatever ERR and the fault mark hold, a command does the same to every other
register. -/
def Obligations.ErrorsDoNotBlock : Prop :=
  ∀ (i : Instr) (s : State) (e : Option ErrCode) (m : Bool), ∃ t t' : State,
    exec i s = .next t ∧ exec i { s with err := e, faultMark := m } = .next t' ∧
    { t'.toEngine with err := t.err } = t.toEngine

/-- R120: CLRERR is the only command that lowers ERR, and a reset the only other event that does (resets are events of
the run, log entry 5). -/
def Obligations.OnlyClrErrAndResetLowerErr : Prop :=
  ∀ (s t : State) (c : ErrCode), step s = .next t → s.err = some c → t.err ≠ some c →
    t.err = none ∧ ((∃ bytes rest, s.pending = .write 0x00 bytes :: rest ∧
        decodeCmd (wordOfBytes bytes) = .ok .clrErr) ∨
      (∃ rest, s.pending = .reset :: rest) ∨ (∃ v rest, s.pending = .resetDuringCmd v :: rest))

/-- R140: the fault mark records every error and no step clears it, a reset included (log entry 5): it never falls, and
it stays set whenever ERR is. -/
def Obligations.FaultMarkSticks : Prop :=
  ∀ s t : State, step s = .next t →
    (s.faultMark = true → t.faultMark = true) ∧ (MarkInv s → MarkInv t)

/-! ### Commands: results, frames, completion -/

/-- R58, R125, R154: every command, in every state, completes in one step (with its effect or with its error), and
leaves the host's accesses and what it has read alone. -/
def Obligations.EveryCommandCompletes : Prop :=
  ∀ (i : Instr) (s : State), ∃ t, exec i s = .next t ∧ SameRun s t

/-- R38: no command writes a register that is not marked 'w' on its row of the access matrix (ERR apart, which
`CompletingCommandsRaiseNothing` and `FailingCommandsWriteOnlyErr` settle). -/
def Obligations.AccessMatrixWrites : Prop :=
  ∀ (i : Instr) (s t : State), exec i s = .next t →
    t.data = s.data ∧
    ((∀ cu, i ≠ .mashStep cu) → i ≠ .mashInit → i ≠ .seedBegin → t.acc = s.acc) ∧
    (i ≠ .seedBegin → i ≠ .seedFold → i ≠ .random → i ≠ .uint32 → t.s0 = s.s0 ∧ t.s1 = s.s1 ∧ t.s2 = s.s2) ∧
    (i = .seedFold → ∀ j : Fin 3, s.phase ≠ .seeding j → readWord j t.toEngine = readWord j s.toEngine) ∧
    (i ≠ .seedBegin → i ≠ .random → i ≠ .uint32 → t.x = s.x) ∧
    (i ≠ .mashOut → i ≠ .trunc32 → i ≠ .random → i ≠ .uint32 → t.result = s.result) ∧
    (i ≠ .seedBegin → i ≠ .seedFold → t.phase = s.phase)

/-- R92: MASH_INIT sets ACC to 4022871197.0 and changes nothing else. -/
def Obligations.MashInitSetsAccInit : Prop :=
  ∀ s : State, ∃ a : Word, F64.val a = 4022871197 ∧ a = 0x41EDF90493A00000 ∧ exec .mashInit s = .next { s with acc := a }

/-- R90, R93: MASH_STEP on any accumulator: the binary64 operations of R90 in their order, with the constants of R8;
nothing but ACC changes. On an accumulator that no run reaches, `Int32Emu` and a NaN can be free values (log entries 6
and 7). -/
def Obligations.MashStepComputesR90 : Prop :=
  ∀ (s : State) (cu : CodeUnit), ∃ a h n f t it acc' : Word,
    a = F64.fadd s.acc (F64.ofInt cu.toNat) ∧ h = F64.fmul 0x3F99CCFD23E00000 a ∧ n = int32Emu h ∧ f = F64.fsub h n ∧
    t = F64.fmul f n ∧ it = int32Emu t ∧ acc' = F64.fadd (F64.fmul 0x41F0000000000000 (F64.fsub t it)) it ∧
    exec (.mashStep cu) s = .next { s with acc := acc' }

/-- R95: MASH_STEP on an accumulator in range. Every intermediate value is in the range R95 gives, the two truncations
are plain, and the new accumulator is in range; nothing else changes. -/
def Obligations.MashStepStaysInRange : Prop :=
  ∀ (s : State) (cu : CodeUnit), AccInv s.acc → ∃ h n f t it acc' : Word,
    h = F64.fmul 0x3F99CCFD23E00000 (F64.fadd s.acc (F64.ofInt cu.toNat)) ∧
    F64.isFinite h = true ∧ 0 ≤ F64.val h ∧ F64.val h < 2 ^ 31 ∧
    n = int32Emu h ∧ n = F64.ofInt (F64.truncVal h) ∧
    f = F64.fsub h n ∧ F64.isFinite f = true ∧ 0 ≤ F64.val f ∧ F64.val f < 1 ∧
    F64.val f = F64.val h - F64.truncVal h ∧
    t = F64.fmul f n ∧ F64.isFinite t = true ∧ 0 ≤ F64.val t ∧ F64.val t ≤ F64.val n ∧
    it = int32Emu t ∧ it = F64.ofInt (F64.truncVal t) ∧
    acc' = F64.fadd (F64.fmul 0x41F0000000000000 (F64.fsub t it)) it ∧ AccInv acc' ∧
    exec (.mashStep cu) s = .next { s with acc := acc' }

/-- R91, R96: MASH_OUT on a finite accumulator returns the product of its truncation and 2^-32, which is exactly
k * 2^-32 for k the low 32 bits of its integer part, signed: in [-0.5, 0.5) and never -0.0. ACC does not change (R98). -/
def Obligations.MashOutReturnsTheScaledLow32Bits : Prop :=
  ∀ s : State, F64.isFinite s.acc = true → ∃ (k : Int) (r : Word),
    k = toSigned32 (F64.truncVal s.acc % 2 ^ 32) ∧ -2 ^ 31 ≤ k ∧ k < 2 ^ 31 ∧
    r = F64.fmul (int32Emu s.acc) 0x3DF0000000000000 ∧
    r = F64.ofQ32 k ∧ F64.isFinite r = true ∧ F64.val r * 2 ^ 32 = k ∧ r ≠ 0x8000000000000000 ∧
    -1 / 2 ≤ F64.val r ∧ F64.val r < 1 / 2 ∧
    exec .mashOut s = .next { s with result := r }

/-- R80, R85: TRUNC32 on a finite DATA returns the binary64 whose value is exactly the low 32 bits of the integer part,
as a signed integer; +0.0 for 0. Nothing else changes. -/
def Obligations.Trunc32ReturnsTheSignedLow32Bits : Prop :=
  ∀ s : State, F64.isFinite s.data = true → ∃ (k : Int) (r : Word),
    k = toSigned32 (F64.truncVal s.data % 2 ^ 32) ∧ -2 ^ 31 ≤ k ∧ k < 2 ^ 31 ∧
    F64.isFinite r = true ∧ F64.val r = k ∧ r ≠ 0x8000000000000000 ∧ r = F64.ofInt k ∧
    exec .trunc32 s = .next { s with result := r }

/-- R101: SEED_BEGIN, from any state, gives the same five register values and starts seeding; nothing else changes. -/
def Obligations.SeedBeginGivesTheBaselineValues : Prop :=
  ∀ s : State, exec .seedBegin s = .next { s with
    acc := 0x41ED5DC288600000, s0 := 0xBFC17E7017000000, s1 := 0x3FC3399F2E800000, s2 := 0xBFB511EBBD000000,
    x := 0x3FF0000000000000, phase := .seeding 0 }

/-- R102, R106: SEED_FOLD in SEEDING, on a word that is a multiple of 2^-32 in [-0.5, 0.5) and a finite accumulator:
the word that SIDX selects takes the exact difference, plus 1.0 if that is negative, and PHASE and SIDX move on;
nothing else changes. -/
def Obligations.SeedFoldSubtractsExactly : Prop :=
  ∀ (s : State) (k : Fin 3) (a : Int), s.phase = .seeding k → -2 ^ 31 ≤ a → a < 2 ^ 31 →
    readWord k s.toEngine = F64.ofQ32 a → F64.isFinite s.acc = true →
    ∃ (d : Int) (w : Word), d = a - toSigned32 (F64.truncVal s.acc % 2 ^ 32) ∧
      w = F64.ofQ32 (if d < 0 then d + 2 ^ 32 else d) ∧
      exec .seedFold s = .next
        (if k = 0 then { s with s0 := w, phase := .seeding 1 }
         else if k = 1 then { s with s1 := w, phase := .seeding 2 }
         else { s with s2 := w, phase := .ready })

/-- R104, R108: RANDOM on a READY state with words k0, k1, k2 and carry c. Every operation of the step gives the exact
value R108 names, the new words and carry are those of the integer multiply-with-carry step, the carry keeps its
bound, and the result is the new word; nothing else changes. -/
def Obligations.RandomIsTheIntegerStep : Prop :=
  ∀ (s : State) (k0 k1 k2 c : Nat), s.phase = .ready → k0 < 2 ^ 32 → k1 < 2 ^ 32 → k2 < 2 ^ 32 → c ≤ 2091639 →
    s.s0 = F64.ofQ32 k0 → s.s1 = F64.ofQ32 k1 → s.s2 = F64.ofQ32 k2 → s.x = F64.ofInt c →
    ∃ (n : Nat) (p q y x' s2' : Word), n = 2091639 * k0 + c ∧ n < 2 ^ 53 ∧
      p = F64.fmul s.s0 0x413FEA7700000000 ∧ p = F64.ofQ32 (2091639 * k0 : Nat) ∧
      q = F64.fmul s.x 0x3DF0000000000000 ∧ q = F64.ofQ32 c ∧
      y = F64.fadd q p ∧ y = F64.ofQ32 n ∧ F64.val y * 2 ^ 32 = n ∧
      x' = int32Emu y ∧ x' = F64.ofInt (n / 2 ^ 32 : Nat) ∧
      s2' = F64.fsub y x' ∧ s2' = F64.ofQ32 (n % 2 ^ 32 : Nat) ∧
      n / 2 ^ 32 ≤ 2091639 ∧
      exec .random s = .next { s with
        s0 := F64.ofQ32 k1, s1 := F64.ofQ32 k2, s2 := F64.ofQ32 (n % 2 ^ 32 : Nat), x := F64.ofInt (n / 2 ^ 32 : Nat),
        result := F64.ofQ32 (n % 2 ^ 32 : Nat) }

/-- R105, R108, R109: UINT32 on a READY state makes the same step as RANDOM and returns the new word as an integer,
zero-extended; nothing else changes. -/
def Obligations.Uint32IsTheIntegerStep : Prop :=
  ∀ (s : State) (k0 k1 k2 c : Nat), s.phase = .ready → k0 < 2 ^ 32 → k1 < 2 ^ 32 → k2 < 2 ^ 32 → c ≤ 2091639 →
    s.s0 = F64.ofQ32 k0 → s.s1 = F64.ofQ32 k1 → s.s2 = F64.ofQ32 k2 → s.x = F64.ofInt c →
    ∃ n : Nat, n = 2091639 * k0 + c ∧
      exec .uint32 s = .next { s with
        s0 := F64.ofQ32 k1, s1 := F64.ofQ32 k2, s2 := F64.ofQ32 (n % 2 ^ 32 : Nat), x := F64.ofInt (n / 2 ^ 32 : Nat),
        result := BitVec.ofNat 64 (n % 2 ^ 32) }

/-- R109: on every READY state that meets R107, RANDOM's result is in [0, 1) and not -0.0, and UINT32's is below 2^32
and is RANDOM's times 2^32. -/
def Obligations.OutputRanges : Prop :=
  ∀ s : State, s.phase = .ready → ReadyInv s.toEngine → ∃ t u : State,
    exec .random s = .next t ∧ exec .uint32 s = .next u ∧
    F64.isFinite t.result = true ∧ t.result ≠ 0x8000000000000000 ∧ 0 ≤ F64.val t.result ∧ F64.val t.result < 1 ∧
    u.result.toNat < 2 ^ 32 ∧ F64.val t.result * 2 ^ 32 = u.result.toNat

/-- R113, R105: in READY, whatever the words hold, RANDOM and UINT32 rotate them the same way and leave the same words
and carry; RANDOM returns the new S2, UINT32 the integer of the same word (free for a word no run reaches, log
entry 8). -/
def Obligations.GenerationRotatesTheWords : Prop :=
  ∀ s : State, s.phase = .ready → ∃ t u : State, exec .random s = .next t ∧ exec .uint32 s = .next u ∧
    t.s0 = s.s1 ∧ t.s1 = s.s2 ∧ t.result = t.s2 ∧
    { u with result := t.result } = t ∧ u.result = (uint32Of u.s2).setWidth 64

/-- R120: CLRERR clears ERR and nothing else, not the fault mark (R140); doing it again changes nothing. -/
def Obligations.ClrErrClearsErr : Prop :=
  ∀ s : State, ∃ t, exec .clrErr s = .next t ∧ t = { s with err := none } ∧
    (statusWord t.toEngine).extractLsb 11 8 = 0 ∧ exec .clrErr t = .next t

/-! ### Arithmetic (00_scope.md R10, 40_int32.md) -/

/-- R10: `fadd` and `fsub` of finite operands round the exact result to nearest, ties to even: no finite binary64 is
nearer, and of two equally near the result has the even fraction. They are finite unless the exact result is at least
2^1024 - 2^970 in magnitude, a threshold of IEEE-754 that R10 does not spell out (log entry 21). Values are in units of 2^-1074. -/
def Obligations.AdditionRoundsToNearestEven : Prop :=
  ∀ (a b r : Word) (z : Int), F64.isFinite a = true → F64.isFinite b = true →
    ((r = F64.fadd a b ∧ z = F64.scaled a + F64.scaled b) ∨ (r = F64.fsub a b ∧ z = F64.scaled a - F64.scaled b)) →
    (z.natAbs < F64.twoPow 2098 - F64.twoPow 2044 → F64.isFinite r = true) ∧
    (F64.isFinite r = true → ∀ c : Word, F64.isFinite c = true →
      (F64.scaled r - z).natAbs ≤ (F64.scaled c - z).natAbs ∧
      ((F64.scaled r - z).natAbs = (F64.scaled c - z).natAbs → F64.scaled r ≠ F64.scaled c →
        F64.fraction r % 2 = 0))

/-- R10: `fmul` of finite operands rounds the exact product to nearest, ties to even. It is finite when the exact product
is below 2^1024 - 2^970 in magnitude, a threshold of IEEE-754 that R10 does not spell out (log entry 21). Products are in
units of 2^-2148. -/
def Obligations.MultiplicationRoundsToNearestEven : Prop :=
  ∀ a b : Word, F64.isFinite a = true → F64.isFinite b = true →
    ((F64.scaled a * F64.scaled b).natAbs < (F64.twoPow 2098 - F64.twoPow 2044) * F64.oneUnits → F64.isFinite (F64.fmul a b) = true) ∧
    (F64.isFinite (F64.fmul a b) = true → ∀ c : Word, F64.isFinite c = true →
      (F64.scaled (F64.fmul a b) * F64.oneUnits - F64.scaled a * F64.scaled b).natAbs ≤
        (F64.scaled c * F64.oneUnits - F64.scaled a * F64.scaled b).natAbs ∧
      ((F64.scaled (F64.fmul a b) * F64.oneUnits - F64.scaled a * F64.scaled b).natAbs =
          (F64.scaled c * F64.oneUnits - F64.scaled a * F64.scaled b).natAbs →
        F64.scaled (F64.fmul a b) ≠ F64.scaled c → F64.fraction (F64.fmul a b) % 2 = 0))

/-- R81: the laws of `Int32Emu` on finite operands. -/
def Obligations.Int32EmuLaws : Prop :=
  ∀ v : Word, F64.isFinite v = true →
    (∃ r : Int, -2 ^ 31 ≤ r ∧ r < 2 ^ 31 ∧ F64.val (int32Emu v) = r) ∧
    F64.isFinite (int32Emu v) = true ∧ int32Emu v ≠ 0x8000000000000000 ∧
    (int32Emu v = F64.ofInt (F64.truncVal v) ↔ -2 ^ 31 ≤ F64.truncVal v ∧ F64.truncVal v < 2 ^ 31) ∧
    int32Emu (int32Emu v) = int32Emu v ∧
    (∀ w : Word, F64.isFinite w = true → F64.truncVal w % 2 ^ 32 = F64.truncVal v % 2 ^ 32 → int32Emu w = int32Emu v) ∧
    ((2 ^ 84 ≤ F64.val v ∨ F64.val v ≤ -2 ^ 84) → int32Emu v = 0) ∧
    (-1 < F64.val v → F64.val v < 1 → int32Emu v = 0) ∧
    (F64.truncVal v = 2 ^ 32 → int32Emu v = 0) ∧ (F64.truncVal v = 2 ^ 32 - 1 → F64.val (int32Emu v) = -1) ∧
    (F64.truncVal v = 2 ^ 31 → F64.val (int32Emu v) = -2147483648) ∧
    (F64.truncVal v = 2 ^ 31 + 1 → F64.val (int32Emu v) = -2147483647)

/-- R84: the bit-level algorithm gives the same result as the definition on every finite input. -/
def Obligations.BitLevelAlgorithmAgrees : Prop :=
  ∀ b : Word, F64.isFinite b = true → int32EmuBits b = int32Emu b

/-- R82: where the integer part is a signed 32-bit integer, subtracting `Int32Emu` leaves exactly the fractional part,
a value in (-1, 1); +0.0 for a nonzero integer or +0.0, and -0.0 for -0.0. -/
def Obligations.FractionalRemainderIsExact : Prop :=
  ∀ v : Word, F64.isFinite v = true → -2 ^ 31 ≤ F64.truncVal v → F64.truncVal v < 2 ^ 31 →
    F64.isFinite (F64.fsub v (int32Emu v)) = true ∧
    F64.val (F64.fsub v (int32Emu v)) = F64.val v - F64.truncVal v ∧
    -1 < F64.val (F64.fsub v (int32Emu v)) ∧ F64.val (F64.fsub v (int32Emu v)) < 1 ∧
    (F64.val v = F64.truncVal v → v ≠ 0x8000000000000000 → F64.fsub v (int32Emu v) = 0) ∧
    (v = 0x8000000000000000 → F64.fsub v (int32Emu v) = 0x8000000000000000)

/-- R8: the constants: their bits, and that these bits denote the values of R8's table; `E` is the binary64 nearest to
its literal 0.02519603282416938. -/
def Obligations.ConstantsHaveTheirValues : Prop :=
  accInit = 0x41EDF90493A00000 ∧ F64.val accInit = 4022871197 ∧
  mashE = 0x3F99CCFD23E00000 ∧ F64.isFinite mashE = true ∧
  (∀ c : Word, F64.isFinite c = true →
    |F64.val mashE - 2519603282416938 / 10 ^ 17| ≤ |F64.val c - 2519603282416938 / 10 ^ 17|) ∧
  aleaA = 0x413FEA7700000000 ∧ F64.val aleaA = 2091639 ∧
  twoM32 = 0x3DF0000000000000 ∧ F64.val twoM32 = 1 / 2 ^ 32 ∧
  two32 = 0x41F0000000000000 ∧ F64.val two32 = 2 ^ 32 ∧
  oneF64 = 0x3FF0000000000000 ∧ F64.val oneF64 = 1 ∧ spaceUnit = 0x0020

/-- R10: `lt0` is 'less than zero': of a finite binary64 exactly when its value is negative, so of neither zero; true of
the negative infinity, false of the positive one and of every NaN. -/
def Obligations.LessThanZeroTest : Prop :=
  ∀ b : Word, (F64.isFinite b = true → (F64.lt0 b = true ↔ F64.val b < 0)) ∧
    (F64.isNaN b = true → F64.lt0 b = false) ∧
    (F64.isInf b = true → (F64.lt0 b = true ↔ b = 0xFFF0000000000000))

/-- R83: on registers that meet the invariant, every internal use of `Int32Emu` gets a finite operand: MASH_STEP's `h`
and `t`, the accumulator of MASH_OUT and SEED_FOLD, SEED_BEGIN's three accumulators, and in READY the sum `y`. -/
def Obligations.InternalTruncationOperandsAreFinite : Prop :=
  ∀ (e : Engine), EngineInv e →
    (∀ cu : CodeUnit, ∃ h t : Word, h = F64.fmul mashE (F64.fadd e.acc (F64.ofInt cu.toNat)) ∧
      t = F64.fmul (F64.fsub h (int32Emu h)) (int32Emu h) ∧ F64.isFinite h = true ∧ F64.isFinite t = true) ∧
    F64.isFinite e.acc = true ∧
    F64.isFinite (mashStep accInit spaceUnit) = true ∧
    F64.isFinite (mashStep (mashStep accInit spaceUnit) spaceUnit) = true ∧
    F64.isFinite (mashStep (mashStep (mashStep accInit spaceUnit) spaceUnit) spaceUnit) = true ∧
    (e.phase = .ready → F64.isFinite (aleaY e.s0 e.x) = true)

/-! ### Invariants and whole-machine rules -/

/-- R95, R106, R107: every step keeps the invariant of the registers: the accumulator in range, the seeding words and
the READY words and carry as their phase has them. -/
def Obligations.EveryStepKeepsTheInvariant : Prop :=
  ∀ s t : State, EngineInv s.toEngine → step s = .next t → EngineInv t.toEngine

/-- R37, R95: the invariant holds at reset, and so does the rule that ERR set means a fault mark (the mark is clear at
reset by log entry 11). -/
def Obligations.InvariantHoldsAtReset : Prop := EngineInv State.reset.toEngine ∧ MarkInv State.reset

/-- R30: the seeding state machine: the PHASE and SIDX every command leaves, and the only events that change them; the
commands out of their phase raise NOT_READY and SEQUENCE. Resets are events of the run (log entry 5). -/
def Obligations.PhaseTransitions : Prop :=
  (∀ (i : Instr) (s t : State), exec i s = .next t →
    (i = .seedBegin → t.phase = .seeding 0) ∧
    (i = .seedFold → (s.phase = .seeding 0 → t.phase = .seeding 1) ∧ (s.phase = .seeding 1 → t.phase = .seeding 2) ∧
      (s.phase = .seeding 2 → t.phase = .ready) ∧
      ((∀ k, s.phase ≠ .seeding k) → t.phase = s.phase ∧ (s.err = none → t.err = some .sequence))) ∧
    ((i = .random ∨ i = .uint32) → s.phase ≠ .ready → s.err = none → t.err = some .notReady) ∧
    (i ≠ .seedBegin → i ≠ .seedFold → t.phase = s.phase)) ∧
  (∀ s t : State, step s = .next t → t.phase ≠ s.phase →
    (t.phase = .idle ∧ ((∃ rest, s.pending = .reset :: rest) ∨ ∃ v rest, s.pending = .resetDuringCmd v :: rest)) ∨
    ∃ bytes rest, s.pending = .write 0x00 bytes :: rest ∧
      (decodeCmd (wordOfBytes bytes) = .ok .seedBegin ∨ decodeCmd (wordOfBytes bytes) = .ok .seedFold))

/-- R114: on every READY state that meets R107, the sum of the recurrence is in [0, 2^31), and plain truncation in place
of `Int32Emu` gives the same step. -/
def Obligations.PlainTruncationGivesTheSameStep : Prop :=
  ∀ s : State, ReadyInv s.toEngine →
    F64.isFinite (aleaY s.s0 s.x) = true ∧ 0 ≤ F64.val (aleaY s.s0 s.x) ∧ F64.val (aleaY s.s0 s.x) < 2 ^ 31 ∧
    plainStep s = aleaStep s

/-- R112: two engines that start from the same registers and receive the same accesses end with the same registers,
stop at the same place and return the same values. How a run stops is log entry 19, that what was read before a reset
stays read log entry 5, and that a run adds its reads to those of its start state log entry 22. -/
def Obligations.RunsAreDeterminedByTheRegisters : Prop :=
  ∀ (evs : List HostEvent) (s s' : State), s.toEngine = s'.toEngine → ∃ rs : List Word,
    (endState (runEvents evs s)).toEngine = (endState (runEvents evs s')).toEngine ∧
    (endState (runEvents evs s)).reads = s.reads ++ rs ∧ (endState (runEvents evs s')).reads = s'.reads ++ rs ∧
    ((∃ t, runEvents evs s = .completed t) ↔ (∃ t, runEvents evs s' = .completed t))

/-- R97: one MASH_STEP for each code unit of a text and then MASH_OUT leave the accumulator and return the hash that
`MashHash` defines, from whatever accumulator came before; nothing else changes. -/
def Obligations.MashSequenceIsMashHash : Prop :=
  ∀ (t : List CodeUnit) (s : State), runEvents (stmtEvents (.mash t)) s =
    .completed { s with acc := (mashHash s.acc t).1, result := (mashHash s.acc t).2 }

/-- R110: the seeding sequence of any text, from any state, leaves the generator state that `AleaNew` defines, READY,
in [0, 1) with a carry of 1, and raises nothing. -/
def Obligations.SeedSequenceIsAleaNew : Prop :=
  ∀ (t : List CodeUnit) (s : State), ∃ u : State, runEvents (stmtEvents (.seed t)) s = .completed u ∧
    u.s0 = (aleaNew t).s0 ∧ u.s1 = (aleaNew t).s1 ∧ u.s2 = (aleaNew t).s2 ∧ u.x = (aleaNew t).x ∧
    u.phase = .ready ∧ ReadyInv u.toEngine ∧ F64.val u.x = 1 ∧
    u.data = s.data ∧ u.result = s.result ∧ u.err = s.err ∧ u.faultMark = s.faultMark ∧ SameRun s u

/-- R57, R61, R74: TRUNC32 reads the DATA that the write before it left, and a later DATA write does not change its
result. -/
def Obligations.Trunc32ReadsDataAtItsCommandWrite : Prop :=
  ∀ (s : State) (d d' : Word), F64.isFinite d = true →
    runEvents (stmtEvents (.trunc d) ++ stmtEvents (.wrData d')) s =
      .completed { s with data := d', result := int32Emu d }

/-- R124, R38: what the host writes anywhere but at CMD, and what DATA, RESULT and ERR hold, never reaches ACC, S0, S1,
S2, X, PHASE or SIDX. Two engines that agree on these, whatever else they hold, and serve the same event, or two writes
of different bytes at one offset other than CMD's, or a reset that abandons different CMD writes, still agree on them. -/
def Obligations.GeneratorStateIgnoresHostData : Prop :=
  ∀ (ev ev' : HostEvent) (s s' t t' : State),
    (ev = ev' ∨ (∃ off bytes bytes', off ≠ 0x00 ∧ ev = .write off bytes ∧ ev' = .write off bytes') ∨
      ∃ v v', ev = .resetDuringCmd v ∧ ev' = .resetDuringCmd v') →
    { s.toEngine with data := 0, result := 0, err := none } = { s'.toEngine with data := 0, result := 0, err := none } →
    serve ev s = .next t → serve ev' s' = .next t' →
    { t.toEngine with data := 0, result := 0, err := none } = { t'.toEngine with data := 0, result := 0, err := none }

/-- R148: TRUNC32 with no DATA write since reset returns 0 and raises nothing: DATA is 0 at reset, every step but that of
a DATA write keeps it 0, and in every state with DATA 0 TRUNC32 writes 0 to RESULT and changes nothing else. -/
def Obligations.Trunc32AfterReset : Prop :=
  State.reset.data = 0 ∧
  (∀ s t : State, s.data = 0 → (∀ bytes rest, s.pending ≠ .write 0x08 bytes :: rest) → step s = .next t → t.data = 0) ∧
  (∀ s : State, s.data = 0 → exec .trunc32 s = .next { s with result := 0x0000000000000000 })

/-- R137: an event that reaches one engine of a platform never changes another. How a platform routes is log entry 15. -/
def Obligations.EnginesAreIndependent : Prop :=
  ∀ (p q : List Slot) (ev : BusEvent), servePlatform ev p = .next q →
    ∃ (i : Nat) (ev' : HostEvent) (sl : Slot) (t : State), route p ev = some (i, ev') ∧ p[i]? = some sl ∧
      serve ev' sl.engine = .next t ∧ q[i]? = some { sl with engine := t } ∧ q.length = p.length ∧
      ∀ j, j ≠ i → q[j]? = p[j]?
end

