-- ==== Sys2Proof/Laws/Float.lean ====
section
/-!
SUPPORT. Facts about binary64 arithmetic: what `pack` lays out, what rounding does to a value that is representable and
to one that is not, and from that when the operations of 00_scope.md R10 are exact.
-/

namespace Sys2Proof.Machine

/-! ### Layout -/

theorem F64.sign_eq (b : Word) : F64.sign b = decide (2 ^ 63 ≤ b.toNat) := by
  have h : b[63] = b.msb := by simp [BitVec.msb_eq_getMsbD_zero, BitVec.getMsbD]
  rw [F64.sign, h, BitVec.msb_eq_decide]

theorem F64.expField_eq (b : Word) : F64.expField b = b.toNat / 2 ^ 52 % 2 ^ 11 := by
  simp [F64.expField, BitVec.extractLsb_toNat, Nat.shiftRight_eq_div_pow]

theorem F64.fraction_eq (b : Word) : F64.fraction b = b.toNat % 2 ^ 52 := by
  simp [F64.fraction, BitVec.extractLsb_toNat]

/-- The magnitude that bits 62:0 denote. -/
def F64.magOf (m : Nat) : Nat :=
  if m / 2 ^ 52 = 0 then m % 2 ^ 52 else (2 ^ 52 + m % 2 ^ 52) * 2 ^ (m / 2 ^ 52 - 1)

theorem F64.toNat_pack (neg : Bool) {m : Nat} (h : m < 2 ^ 63) :
    (F64.pack neg m).toNat = (if neg then 2 ^ 63 else 0) + m := by
  cases neg <;> simp [F64.pack] <;> omega

theorem F64.sign_pack (neg : Bool) {m : Nat} (h : m < 2 ^ 63) : F64.sign (F64.pack neg m) = neg := by
  rw [F64.sign_eq, F64.toNat_pack neg h]
  cases neg <;> simp
  omega

theorem F64.expField_pack (neg : Bool) {m : Nat} (h : m < 2 ^ 63) :
    F64.expField (F64.pack neg m) = m / 2 ^ 52 := by
  rw [F64.expField_eq, F64.toNat_pack neg h]
  cases neg <;> simp <;> omega

theorem F64.fraction_pack (neg : Bool) {m : Nat} (h : m < 2 ^ 63) :
    F64.fraction (F64.pack neg m) = m % 2 ^ 52 := by
  rw [F64.fraction_eq, F64.toNat_pack neg h]
  cases neg <;> simp <;> omega

theorem F64.mag_pack (neg : Bool) {m : Nat} (h : m < 2 ^ 63) : F64.mag (F64.pack neg m) = F64.magOf m := by
  simp only [F64.mag, F64.magOf, F64.expField_pack neg h, F64.fraction_pack neg h]

theorem F64.isFinite_pack (neg : Bool) {m : Nat} (h : m < F64.infMag) : F64.isFinite (F64.pack neg m) = true := by
  have h' : m < 2 ^ 63 := lt_trans h (by decide)
  simp only [F64.isFinite, F64.expField_pack neg h', F64.infMag] at *
  simp; omega

theorem F64.scaled_pack (neg : Bool) {m : Nat} (h : m < 2 ^ 63) :
    F64.scaled (F64.pack neg m) = if neg then -(F64.magOf m : Int) else F64.magOf m := by
  simp only [F64.scaled, F64.sign_pack neg h, F64.mag_pack neg h]

/-- Every word is the packing of its own sign and bits 62:0. -/
theorem F64.eq_pack (b : Word) : b = F64.pack (F64.sign b) (b.toNat % 2 ^ 63) := by
  apply BitVec.eq_of_toNat_eq
  rw [F64.toNat_pack _ (Nat.mod_lt _ (by decide)), F64.sign_eq]
  have := b.isLt
  split <;> rename_i h <;> simp at h <;> omega

theorem F64.expField_mod (b : Word) : b.toNat % 2 ^ 63 / 2 ^ 52 = F64.expField b := by
  rw [F64.expField_eq]; omega

theorem F64.isFinite_iff (b : Word) : F64.isFinite b = true ↔ b.toNat % 2 ^ 63 < F64.infMag := by
  have h := F64.expField_mod b
  have hlt : b.toNat % 2 ^ 63 < 2 ^ 63 := Nat.mod_lt _ (by decide)
  simp only [F64.isFinite, F64.infMag, bne_iff_ne, ne_eq]
  omega

theorem F64.isNaN_of_isFinite {b : Word} (h : F64.isFinite b = true) : F64.isNaN b = false := by
  simp_all [F64.isFinite, F64.isNaN]

theorem F64.isInf_of_isFinite {b : Word} (h : F64.isFinite b = true) : F64.isInf b = false := by
  simp_all [F64.isFinite, F64.isInf]

theorem F64.mag_eq (b : Word) : F64.mag b = F64.magOf (b.toNat % 2 ^ 63) := by
  conv_lhs => rw [F64.eq_pack b]
  exact F64.mag_pack _ (Nat.mod_lt _ (by decide))

/-! ### Units -/

theorem F64.twoPow_eq (k : Nat) : F64.twoPow k = 2 ^ k := by
  unfold F64.twoPow; rfl

theorem F64.twoPow_pos (k : Nat) : 0 < F64.twoPow k := by
  rw [F64.twoPow_eq]; exact Nat.two_pow_pos k

theorem F64.twoPow_add (j k : Nat) : F64.twoPow (j + k) = 2 ^ j * F64.twoPow k := by
  rw [F64.twoPow_eq, F64.twoPow_eq, pow_add]

theorem F64.oneUnits_pos : 0 < F64.oneUnits := F64.twoPow_pos _

theorem F64.q32Units_pos : 0 < F64.q32Units := F64.twoPow_pos _

theorem F64.oneUnits_ne : (F64.oneUnits : Int) ≠ 0 := Int.natCast_ne_zero.2 F64.oneUnits_pos.ne'

theorem F64.q32Units_ne : (F64.q32Units : Int) ≠ 0 := Int.natCast_ne_zero.2 F64.q32Units_pos.ne'

theorem F64.oneUnits_eq : F64.oneUnits = 2 ^ 32 * F64.q32Units := F64.twoPow_add 32 1042

/-! ### Magnitudes -/

/-- In every binade: `q` low bits dropped and a significand `c` of at most 53 bits, the top one set unless `q` is 0. -/
theorem F64.magOf_add {q c : Nat} (hc : c ≤ 2 ^ 53) (hq : q = 0 ∨ 2 ^ 52 ≤ c) :
    F64.magOf (q * 2 ^ 52 + c) = c * 2 ^ q := by
  rcases Nat.lt_or_ge c (2 ^ 52) with h | h
  · obtain rfl : q = 0 := by omega
    have h1 : (0 * 2 ^ 52 + c) / 2 ^ 52 = 0 := by omega
    have h2 : (0 * 2 ^ 52 + c) % 2 ^ 52 = c := by omega
    rw [F64.magOf, h1, h2]; simp
  · rcases Nat.lt_or_ge c (2 ^ 53) with h' | h'
    · have h1 : (q * 2 ^ 52 + c) / 2 ^ 52 = q + 1 := by omega
      have h2 : (q * 2 ^ 52 + c) % 2 ^ 52 = c - 2 ^ 52 := by omega
      rw [F64.magOf, h1, h2, if_neg (by omega), Nat.add_sub_cancel, Nat.add_sub_cancel' h]
    · obtain rfl : c = 2 ^ 53 := by omega
      have h1 : (q * 2 ^ 52 + 2 ^ 53) / 2 ^ 52 = q + 2 := by omega
      have h2 : (q * 2 ^ 52 + 2 ^ 53) % 2 ^ 52 = 0 := by omega
      rw [F64.magOf, h1, h2, if_neg (by omega)]
      have : q + 2 - 1 = q + 1 := by omega
      rw [this, pow_succ 2 q]; ring

/-- Every pattern of bits 62:0 is `q` binades up and a significand below 2^53. -/
theorem F64.exists_parts (m : Nat) :
    ∃ q c, m = q * 2 ^ 52 + c ∧ c < 2 ^ 53 ∧ (q = 0 ∨ 2 ^ 52 ≤ c) ∧ q = m / 2 ^ 52 - 1 := by
  refine ⟨m / 2 ^ 52 - 1, m - (m / 2 ^ 52 - 1) * 2 ^ 52, ?_, ?_, ?_, rfl⟩ <;> omega

/-- Magnitudes grow strictly with the bits. -/
theorem F64.magOf_strictMono : StrictMono F64.magOf := by
  refine strictMono_nat_of_lt_succ fun m => ?_
  obtain ⟨q, c, rfl, hc, hq, -⟩ := F64.exists_parts m
  rw [add_assoc, F64.magOf_add (by omega) hq, F64.magOf_add (by omega) (by omega)]
  exact Nat.mul_lt_mul_of_pos_right (Nat.lt_succ_self c) (Nat.two_pow_pos q)

theorem F64.infMag_eq : F64.infMag = 2045 * 2 ^ 52 + 2 ^ 53 := by decide

/-- A magnitude a finite binary64 can have, in units of 2^-1074. -/
def F64.Rep (n : Nat) : Prop := ∃ m, m < F64.infMag ∧ n = F64.magOf m

theorem F64.rep_mag {b : Word} (h : F64.isFinite b = true) : F64.Rep (F64.mag b) :=
  ⟨_, (F64.isFinite_iff b).1 h, F64.mag_eq b⟩

/-! ### Rounding -/

theorem F64.nearestEven_mul (c q : Nat) : F64.nearestEven (c * 2 ^ q) q = c := by
  have : (0 : Nat) ≠ 2 ^ q := (Nat.two_pow_pos q).ne
  simp [F64.nearestEven, this]

theorem F64.nearestEven_mono {n n' : Nat} (h : n ≤ n') (q : Nat) :
    F64.nearestEven n q ≤ F64.nearestEven n' q := by
  have hd : n / 2 ^ q ≤ n' / 2 ^ q := Nat.div_le_div_right h
  simp only [F64.nearestEven]
  rcases Nat.lt_or_ge (n / 2 ^ q) (n' / 2 ^ q) with hlt | hge
  · split <;> split <;> omega
  · have he : n / 2 ^ q = n' / 2 ^ q := le_antisymm hd hge
    have h1 := Nat.div_add_mod n (2 ^ q)
    have h2 := Nat.div_add_mod n' (2 ^ q)
    have hr : n % 2 ^ q ≤ n' % 2 ^ q := by rw [he] at h1; omega
    rw [he]
    split <;> rename_i ha <;> split <;> rename_i hb <;> simp at ha hb <;> omega

theorem F64.le_droppedBits (k n : Nat) : k ≤ F64.droppedBits k n := le_max_right _ _

/-- The significand a rounding keeps: at most 53 bits (or the next power of two), and all 53 of them if bits were
dropped beyond `k`. -/
theorem F64.nearestEven_bounds (k n : Nat) :
    F64.nearestEven n (F64.droppedBits k n) ≤ 2 ^ 53 ∧
      (F64.droppedBits k n - k = 0 ∨ 2 ^ 52 ≤ F64.nearestEven n (F64.droppedBits k n)) := by
  have hn : n < 2 ^ (n.log2 + 1) := Nat.lt_log2_self
  have h1 : n ≤ 2 ^ 53 * 2 ^ F64.droppedBits k n := by
    rw [← pow_add]
    exact (le_of_lt hn).trans (Nat.pow_le_pow_right (by decide) (by unfold F64.droppedBits; omega))
  refine ⟨(F64.nearestEven_mono h1 _).trans (F64.nearestEven_mul _ _).le, ?_⟩
  by_cases hq : F64.droppedBits k n = k
  · exact .inl (by omega)
  · right
    have hlog : F64.droppedBits k n + 52 = n.log2 := by unfold F64.droppedBits at *; omega
    have h2 : 2 ^ 52 * 2 ^ F64.droppedBits k n ≤ n := by
      rw [← pow_add, show 52 + F64.droppedBits k n = n.log2 by omega]
      exact Nat.log2_self_le (by rintro rfl; simp at hlog)
    exact (F64.nearestEven_mul _ _).ge.trans (F64.nearestEven_mono h2 _)

/-- What the rounded bits denote, short of an overflow: the rounded significand in the binade of `n`. -/
theorem F64.magOf_round (k n : Nat) (h : F64.roundMag k n < F64.infMag) :
    F64.magOf (F64.roundMag k n) * 2 ^ k =
      F64.nearestEven n (F64.droppedBits k n) * 2 ^ F64.droppedBits k n := by
  obtain ⟨h1, h2⟩ := F64.nearestEven_bounds k n
  have hb : F64.roundMag k n =
      (F64.droppedBits k n - k) * 2 ^ 52 + F64.nearestEven n (F64.droppedBits k n) := by
    unfold F64.roundMag at h ⊢
    omega
  rw [hb, F64.magOf_add h1 h2, mul_assoc, ← pow_add, Nat.sub_add_cancel (F64.le_droppedBits k n)]

theorem F64.roundMag_le (k n : Nat) : F64.roundMag k n ≤ F64.infMag := min_le_right _ _

theorem F64.roundMag_lt (k n : Nat) : F64.roundMag k n < 2 ^ 63 :=
  lt_of_le_of_lt (F64.roundMag_le k n) (by decide)

/-- Rounding a representable magnitude is exact. -/
theorem F64.roundMag_exact (k : Nat) {m : Nat} (hm : m < F64.infMag) :
    F64.roundMag k (F64.magOf m * 2 ^ k) = m := by
  obtain ⟨p, c, rfl, hc, hp, hp'⟩ := F64.exists_parts m
  have hv : F64.magOf (p * 2 ^ 52 + c) = c * 2 ^ p := F64.magOf_add hc.le hp
  rw [hv, mul_assoc, ← pow_add]
  have hq : F64.droppedBits k (c * 2 ^ (p + k)) = p + k := by
    unfold F64.droppedBits
    rcases hp with rfl | hp
    · rcases Nat.eq_zero_or_pos c with rfl | hc0
      · simp
      · have : (c * 2 ^ (0 + k)).log2 < 53 + k := by
          rw [Nat.log2_lt (by positivity), zero_add, pow_add]
          exact Nat.mul_lt_mul_of_pos_right hc (Nat.two_pow_pos k)
        omega
    · have h0 : c * 2 ^ (p + k) ≠ 0 := by positivity
      have h1 : (c * 2 ^ (p + k)).log2 < 53 + (p + k) := by
        rw [Nat.log2_lt h0, pow_add 2 53]
        exact Nat.mul_lt_mul_of_pos_right hc (Nat.two_pow_pos _)
      have h2 : 52 + (p + k) ≤ (c * 2 ^ (p + k)).log2 := by
        rw [Nat.le_log2 h0, pow_add 2 52]
        exact Nat.mul_le_mul_right _ hp
      omega
  simp only [F64.roundMag, hq, F64.nearestEven_mul, Nat.add_sub_cancel]
  omega

/-- Rounding is monotone. -/
theorem F64.roundMag_mono (k : Nat) {n n' : Nat} (h : n ≤ n') : F64.roundMag k n ≤ F64.roundMag k n' := by
  have hd : F64.droppedBits k n ≤ F64.droppedBits k n' := by
    have : n.log2 ≤ n'.log2 := by
      rcases Nat.eq_zero_or_pos n with rfl | h0
      · simp
      · exact (Nat.le_log2 (by omega)).2 ((Nat.log2_self_le (by omega)).trans h)
    unfold F64.droppedBits; omega
  obtain ⟨h1, -⟩ := F64.nearestEven_bounds k n
  obtain ⟨-, h2⟩ := F64.nearestEven_bounds k n'
  have hk := F64.le_droppedBits k n
  unfold F64.roundMag
  rcases Nat.lt_or_ge (F64.droppedBits k n) (F64.droppedBits k n') with hlt | hge
  · omega
  · have he : F64.droppedBits k n = F64.droppedBits k n' := le_antisymm hd hge
    have hm := F64.nearestEven_mono h (F64.droppedBits k n')
    rw [he]; omega

/-- A value at most a representable one rounds to at most it. -/
theorem F64.roundMag_le_of_le (k : Nat) {n m : Nat} (hm : m < F64.infMag) (h : n ≤ F64.magOf m * 2 ^ k) :
    F64.roundMag k n ≤ m :=
  (F64.roundMag_mono k h).trans (F64.roundMag_exact k hm).le

/-- Up to 53 significant bits, at any place short of an overflow, are representable. -/
theorem F64.rep_mul_pow {c p : Nat} (hc : c < 2 ^ 53) (hp : p ≤ 2045) : F64.Rep (c * 2 ^ p) := by
  rcases Nat.eq_zero_or_pos c with rfl | hc0
  · exact ⟨0, by decide, by simp [F64.magOf]⟩
  have h0 : c * 2 ^ p ≠ 0 := by positivity
  have hlog : (c * 2 ^ p).log2 < 53 + p := by
    rw [Nat.log2_lt h0, pow_add]
    exact Nat.mul_lt_mul_of_pos_right hc (Nat.two_pow_pos p)
  obtain ⟨q, hq⟩ : ∃ q, q = (c * 2 ^ p).log2 + 1 - 53 := ⟨_, rfl⟩
  have hn : c * 2 ^ p = c * 2 ^ (p - q) * 2 ^ q := by
    rw [mul_assoc, ← pow_add, Nat.sub_add_cancel (by omega)]
  have hlt : c * 2 ^ (p - q) < 2 ^ 53 := by
    refine Nat.lt_of_mul_lt_mul_right (a := 2 ^ q) ?_
    rw [← hn, ← pow_add]
    exact lt_of_lt_of_le Nat.lt_log2_self (Nat.pow_le_pow_right (by decide) (by omega))
  have hge : q = 0 ∨ 2 ^ 52 ≤ c * 2 ^ (p - q) := by
    by_cases hq0 : q = 0
    · exact .inl hq0
    · refine .inr (Nat.le_of_mul_le_mul_right (c := 2 ^ q) ?_ (Nat.two_pow_pos q))
      rw [← hn, ← pow_add, show 52 + q = (c * 2 ^ p).log2 by omega]
      exact Nat.log2_self_le h0
  refine ⟨q * 2 ^ 52 + c * 2 ^ (p - q), ?_, ?_⟩
  · rw [F64.infMag_eq]; omega
  · rw [F64.magOf_add hlt.le hge, hn]

/-! ### Words and exact values -/

theorem F64.scaled_natAbs (b : Word) : (F64.scaled b).natAbs = F64.mag b := by
  simp only [F64.scaled]; split <;> simp

/-- The sign of a binary64 other than a zero is that of its value. -/
theorem F64.sign_of_ne {b : Word} (h : F64.scaled b ≠ 0) : F64.sign b = decide (F64.scaled b < 0) := by
  unfold F64.scaled at *
  cases F64.sign b
  · rw [if_neg (by decide), eq_comm, decide_eq_false_iff_not]; omega
  · rw [if_pos rfl] at *; rw [eq_comm, decide_eq_true_iff]; omega

theorem F64.scaled_mul (a b : Word) : F64.scaled a * F64.scaled b =
    if F64.sign a ^^ F64.sign b then -((F64.mag a : Int) * F64.mag b) else (F64.mag a : Int) * F64.mag b := by
  unfold F64.scaled
  cases F64.sign a <;> cases F64.sign b <;>
    simp only [Bool.xor_false, Bool.xor_true, Bool.not_true, Bool.not_false, if_true, if_false, Bool.false_eq_true,
      mul_neg, neg_mul, neg_neg]

theorem F64.scaled_nonneg {b : Word} (h : F64.sign b = false) : F64.scaled b = F64.mag b := by
  simp only [F64.scaled, h, if_false, Bool.false_eq_true]

/-- The rounding of a representable value denotes it. -/
theorem F64.scaled_pack_round {z : Int} (h : F64.Rep z.natAbs) (neg : Bool) (hn : z ≠ 0 → neg = decide (z < 0)) :
    F64.scaled (F64.pack neg (F64.roundMag 0 z.natAbs)) = z ∧
      F64.isFinite (F64.pack neg (F64.roundMag 0 z.natAbs)) = true := by
  obtain ⟨m, hm, he⟩ := h
  have hr : F64.roundMag 0 z.natAbs = m := by
    have := F64.roundMag_exact 0 hm
    rwa [← he, pow_zero, mul_one] at this
  rw [hr]
  refine ⟨?_, F64.isFinite_pack neg hm⟩
  rw [F64.scaled_pack neg (lt_trans hm (by decide)), ← he]
  by_cases hz : z = 0
  · simp [hz]
  · rw [hn hz]
    by_cases hlt : z < 0 <;> simp only [hlt, decide_true, decide_false, if_true, if_false, Bool.false_eq_true] <;> omega

theorem F64.scaled_ofScaled {z : Int} (h : F64.Rep z.natAbs) : F64.scaled (F64.ofScaled z) = z :=
  (F64.scaled_pack_round h _ fun _ => rfl).1

theorem F64.isFinite_ofScaled {z : Int} (h : F64.Rep z.natAbs) : F64.isFinite (F64.ofScaled z) = true :=
  (F64.scaled_pack_round h _ fun _ => rfl).2

theorem F64.sign_ofScaled (z : Int) : F64.sign (F64.ofScaled z) = decide (z < 0) :=
  F64.sign_pack _ (F64.roundMag_lt 0 _)

/-- A finite binary64 other than -0.0 is the one that its value names. -/
theorem F64.eq_ofScaled {b : Word} (hf : F64.isFinite b = true) (h0 : b ≠ 0x8000000000000000) :
    b = F64.ofScaled (F64.scaled b) := by
  have hm := (F64.isFinite_iff b).1 hf
  have hr : F64.roundMag 0 (F64.scaled b).natAbs = b.toNat % 2 ^ 63 := by
    rw [F64.scaled_natAbs, F64.mag_eq]
    simpa using F64.roundMag_exact 0 hm
  rw [F64.ofScaled, hr]
  conv_lhs => rw [F64.eq_pack b]
  congr 1
  by_cases hz : F64.mag b = 0
  · have hb : b.toNat % 2 ^ 63 = 0 := by
      rw [F64.mag_eq] at hz
      by_contra hne
      have := F64.magOf_strictMono (Nat.pos_of_ne_zero hne)
      omega
    have hs : F64.sign b = false := by
      rw [F64.sign_eq]
      have := b.isLt
      have : b.toNat ≠ 0x8000000000000000 := fun h => h0 (BitVec.eq_of_toNat_eq h)
      simp; omega
    simp [F64.scaled, hs]
  · have : 0 < F64.mag b := Nat.pos_of_ne_zero hz
    unfold F64.scaled
    cases F64.sign b
    · rw [if_neg (by decide), eq_comm, decide_eq_false_iff_not]; omega
    · rw [if_pos rfl, eq_comm, decide_eq_true_iff]; omega

/-! ### Exact operations -/

theorem F64.sign_neg (b : Word) : F64.sign (F64.neg b) = !F64.sign b := by
  simp [F64.sign, F64.neg, BitVec.getElem_xor]

theorem F64.extractLsb_neg (b : Word) {hi lo : Nat} (h : hi < 63) (hl : lo ≤ hi) :
    (F64.neg b).extractLsb hi lo = b.extractLsb hi lo := by
  have h0 : ∀ i, lo + i ≤ hi → (0x8000000000000000 : Word).getLsbD (lo + i) = false := by
    intro i hi'
    rw [show (0x8000000000000000 : Word) = BitVec.twoPow 64 63 by decide, BitVec.getLsbD_twoPow]
    simp; omega
  apply BitVec.eq_of_getLsbD_eq
  intro i hi'
  simp only [F64.neg, BitVec.getLsbD_extractLsb, BitVec.getLsbD_xor]
  by_cases hh : i ≤ hi - lo
  · rw [h0 i (by omega)]; simp
  · simp [hh]

@[simp] theorem F64.expField_neg (b : Word) : F64.expField (F64.neg b) = F64.expField b := by
  simp only [F64.expField, F64.extractLsb_neg b (show 62 < 63 by decide) (show 52 ≤ 62 by decide)]

@[simp] theorem F64.fraction_neg (b : Word) : F64.fraction (F64.neg b) = F64.fraction b := by
  simp only [F64.fraction, F64.extractLsb_neg b (show 51 < 63 by decide) (show 0 ≤ 51 by decide)]

@[simp] theorem F64.isFinite_neg (b : Word) : F64.isFinite (F64.neg b) = F64.isFinite b := by
  simp only [F64.isFinite, F64.expField_neg]

@[simp] theorem F64.mag_neg (b : Word) : F64.mag (F64.neg b) = F64.mag b := by
  simp only [F64.mag, F64.expField_neg, F64.fraction_neg]

@[simp] theorem F64.scaled_neg (b : Word) : F64.scaled (F64.neg b) = -F64.scaled b := by
  simp only [F64.scaled, F64.sign_neg, F64.mag_neg]
  cases F64.sign b <;> simp only [Bool.not_true, Bool.not_false, if_true, if_false, Bool.false_eq_true, neg_neg]

/-! ### The operations on finite operands -/

theorem F64.sum_finite (op : FloatOp) {a b b' : Word} (ha : F64.isFinite a = true) (hb : F64.isFinite b' = true) :
    F64.sum op a b b' =
      F64.pack (if F64.scaled a + F64.scaled b' = 0 then F64.sign a && F64.sign b'
        else decide (F64.scaled a + F64.scaled b' < 0))
        (F64.roundMag 0 (F64.scaled a + F64.scaled b').natAbs) := by
  simp only [F64.sum, F64.isNaN_of_isFinite ha, F64.isNaN_of_isFinite hb, F64.isInf_of_isFinite ha,
    F64.isInf_of_isFinite hb, Bool.or_false, Bool.and_false, if_false, Bool.false_eq_true]

theorem F64.fmul_finite {a b : Word} (ha : F64.isFinite a = true) (hb : F64.isFinite b = true) :
    F64.fmul a b = F64.pack (F64.sign a ^^ F64.sign b) (F64.roundMag 1074 (F64.mag a * F64.mag b)) := by
  simp only [F64.fmul, F64.isNaN_of_isFinite ha, F64.isNaN_of_isFinite hb, F64.isInf_of_isFinite ha,
    F64.isInf_of_isFinite hb, Bool.or_false, if_false, Bool.false_eq_true]

/-- An exact sum is the binary64 its value names, unless it is a sum of two negative zeros. -/
theorem F64.sum_exact (op : FloatOp) {a b b' : Word} (ha : F64.isFinite a = true) (hb : F64.isFinite b' = true)
    (hs : F64.scaled a + F64.scaled b' ≠ 0 ∨ F64.sign a = false ∨ F64.sign b' = false) :
    F64.sum op a b b' = F64.ofScaled (F64.scaled a + F64.scaled b') := by
  rw [F64.sum_finite op ha hb, F64.ofScaled]
  congr 1
  split
  · rename_i h0
    rcases hs with h | h | h
    · exact absurd h0 h
    · simp [h, h0]
    · simp [h, h0]
  · rfl

theorem F64.fadd_exact {a b : Word} (ha : F64.isFinite a = true) (hb : F64.isFinite b = true)
    (hs : F64.scaled a + F64.scaled b ≠ 0 ∨ F64.sign a = false ∨ F64.sign b = false) :
    F64.fadd a b = F64.ofScaled (F64.scaled a + F64.scaled b) :=
  F64.sum_exact .add ha hb hs

theorem F64.fsub_exact {a b : Word} (ha : F64.isFinite a = true) (hb : F64.isFinite b = true)
    (hs : F64.scaled a - F64.scaled b ≠ 0 ∨ F64.sign a = false ∨ F64.sign b = true) :
    F64.fsub a b = F64.ofScaled (F64.scaled a - F64.scaled b) := by
  rw [F64.fsub, F64.sum_exact .sub ha ((F64.isFinite_neg b).trans hb), F64.scaled_neg, sub_eq_add_neg]
  rw [F64.scaled_neg, ← sub_eq_add_neg, F64.sign_neg]
  simpa using hs

/-- An exact product is the binary64 its value names, unless it is a negative zero. -/
theorem F64.fmul_exact {a b : Word} (ha : F64.isFinite a = true) (hb : F64.isFinite b = true) {z : Int}
    (hz : F64.scaled a * F64.scaled b = z * F64.oneUnits) (hr : F64.Rep z.natAbs)
    (hs : z ≠ 0 ∨ F64.sign a = F64.sign b) : F64.fmul a b = F64.ofScaled z := by
  have hm : F64.mag a * F64.mag b = z.natAbs * F64.oneUnits := by
    rw [← F64.scaled_natAbs a, ← F64.scaled_natAbs b, ← Int.natAbs_mul, hz, Int.natAbs_mul, Int.natAbs_natCast]
  obtain ⟨m, hm', he⟩ := hr
  have hr0 : F64.roundMag 0 z.natAbs = m := by
    have := F64.roundMag_exact 0 hm'
    rwa [← he, pow_zero, mul_one] at this
  rw [F64.fmul_finite ha hb, hm, F64.ofScaled, he, F64.oneUnits, F64.twoPow_eq, F64.roundMag_exact 1074 hm', ← he, hr0]
  congr 1
  have hp := F64.oneUnits_ne
  have hcast : (F64.mag a : Int) * F64.mag b = z.natAbs * F64.oneUnits := by exact_mod_cast hm
  rw [F64.scaled_mul, hcast] at hz
  cases hx : F64.sign a ^^ F64.sign b
  · rw [hx, if_neg (by decide)] at hz
    have := mul_right_cancel₀ hp hz
    rw [eq_comm, decide_eq_false_iff_not]; omega
  · rw [hx, if_pos rfl, ← neg_mul] at hz
    have := mul_right_cancel₀ hp hz
    have : z ≠ 0 := hs.resolve_right fun h => by rw [h, Bool.xor_self] at hx; cases hx
    rw [eq_comm, decide_eq_true_iff]; omega

/-! ### Bounds on non-negative operands -/

/-- Finite with a clear sign bit: not negative and not -0.0. -/
def F64.NonNeg (b : Word) : Prop := F64.isFinite b = true ∧ F64.sign b = false

theorem F64.rep_zero : F64.Rep 0 := ⟨0, by decide, by simp [F64.magOf]⟩

/-- A non-negative value at most a representable one rounds to a non-negative binary64 at most it. -/
theorem F64.pack_round_le (k : Nat) {n M : Nat} (hM : F64.Rep M) (h : n ≤ M * 2 ^ k) :
    F64.NonNeg (F64.pack false (F64.roundMag k n)) ∧ F64.mag (F64.pack false (F64.roundMag k n)) ≤ M := by
  obtain ⟨m, hm, rfl⟩ := hM
  have hle := F64.roundMag_le_of_le k hm h
  have hlt : F64.roundMag k n < 2 ^ 63 := F64.roundMag_lt k n
  refine ⟨⟨F64.isFinite_pack false (hle.trans_lt hm), F64.sign_pack false hlt⟩, ?_⟩
  rw [F64.mag_pack false hlt]
  exact F64.magOf_strictMono.monotone hle

theorem F64.fadd_le {a b : Word} (ha : F64.NonNeg a) (hb : F64.NonNeg b) {M : Nat} (hM : F64.Rep M)
    (h : F64.mag a + F64.mag b ≤ M) : F64.NonNeg (F64.fadd a b) ∧ F64.mag (F64.fadd a b) ≤ M := by
  have hz : F64.scaled a + F64.scaled b = ((F64.mag a + F64.mag b : Nat) : Int) := by
    rw [F64.scaled_nonneg ha.2, F64.scaled_nonneg hb.2]; push_cast; rfl
  have hs : F64.fadd a b = F64.pack false (F64.roundMag 0 (F64.mag a + F64.mag b)) := by
    rw [F64.fadd, F64.sum_finite .add ha.1 hb.1, hz, Int.natAbs_natCast, ha.2, Bool.false_and]
    congr 1
    split
    · rfl
    · rw [decide_eq_false_iff_not]; omega
  rw [hs]
  exact F64.pack_round_le 0 hM (by simpa using h)

theorem F64.fmul_le {a b : Word} (ha : F64.NonNeg a) (hb : F64.NonNeg b) {M : Nat} (hM : F64.Rep M)
    (h : F64.mag a * F64.mag b ≤ M * F64.oneUnits) : F64.NonNeg (F64.fmul a b) ∧ F64.mag (F64.fmul a b) ≤ M := by
  rw [F64.fmul_finite ha.1 hb.1, ha.2, hb.2]
  exact F64.pack_round_le 1074 hM (by rwa [F64.oneUnits, F64.twoPow_eq] at h)

end Sys2Proof.Machine
end

