-- ==== Sys2Proof/Laws/Int32.lean ====
section
/-!
SUPPORT. Facts about the int32 truncation unit: the integer `Int32Emu` denotes, that the result denotes it exactly, and
that the fractional remainder is representable (40_int32.md R81, R82).
-/

namespace Sys2Proof.Machine

theorem toSigned32_range {m : Int} (h0 : 0 ≤ m) (h1 : m < 2 ^ 32) : -2 ^ 31 ≤ toSigned32 m ∧ toSigned32 m < 2 ^ 31 := by
  unfold toSigned32; split <;> omega

theorem int32Of_range (v : Word) : -2 ^ 31 ≤ int32Of v ∧ int32Of v < 2 ^ 31 :=
  toSigned32_range (Int.emod_nonneg _ (by decide)) (Int.emod_lt_of_pos _ (by decide))

theorem int32Emu_of_isFinite {v : Word} (h : F64.isFinite v = true) : int32Emu v = F64.ofInt (int32Of v) := by
  rw [int32Emu, if_pos h]

/-- An integer of at most 53 bits is representable. -/
theorem F64.rep_int {r : Int} (h : r.natAbs < 2 ^ 53) : F64.Rep (r * F64.oneUnits).natAbs := by
  rw [Int.natAbs_mul, Int.natAbs_natCast, F64.oneUnits, F64.twoPow_eq]
  exact F64.rep_mul_pow h (by decide)

theorem F64.scaled_ofInt {r : Int} (h : r.natAbs < 2 ^ 53) : F64.scaled (F64.ofInt r) = r * F64.oneUnits :=
  F64.scaled_ofScaled (F64.rep_int h)

theorem F64.isFinite_ofInt {r : Int} (h : r.natAbs < 2 ^ 53) : F64.isFinite (F64.ofInt r) = true :=
  F64.isFinite_ofScaled (F64.rep_int h)

theorem F64.sign_ofInt (r : Int) : F64.sign (F64.ofInt r) = decide (r < 0) := by
  rw [F64.ofInt, F64.sign_ofScaled, Bool.eq_iff_iff, decide_eq_true_iff, decide_eq_true_iff]
  exact ⟨fun h => by by_contra h'; exact absurd h (not_lt.2 (mul_nonneg (not_lt.1 h') (Int.natCast_nonneg _))),
    fun h => mul_neg_of_neg_of_pos h (Int.natCast_pos.2 F64.oneUnits_pos)⟩

theorem F64.truncVal_ofInt {r : Int} (h : r.natAbs < 2 ^ 53) : F64.truncVal (F64.ofInt r) = r := by
  rw [F64.truncVal, F64.scaled_ofInt h]
  exact Int.mul_tdiv_cancel _ F64.oneUnits_ne

theorem int32Of_ofInt {r : Int} (h : -2 ^ 31 ≤ r ∧ r < 2 ^ 31) : int32Of (F64.ofInt r) = r := by
  rw [int32Of, F64.truncVal_ofInt (by omega)]
  unfold toSigned32; split <;> omega

theorem int32Of_natAbs_lt (v : Word) : (int32Of v).natAbs < 2 ^ 53 := by
  have := int32Of_range v; omega

theorem isFinite_int32Emu {v : Word} (h : F64.isFinite v = true) : F64.isFinite (int32Emu v) = true := by
  rw [int32Emu_of_isFinite h]; exact F64.isFinite_ofInt (int32Of_natAbs_lt v)

theorem scaled_int32Emu {v : Word} (h : F64.isFinite v = true) :
    F64.scaled (int32Emu v) = int32Of v * F64.oneUnits := by
  rw [int32Emu_of_isFinite h]; exact F64.scaled_ofInt (int32Of_natAbs_lt v)

theorem int32Of_of_range {v : Word} (h : -2 ^ 31 ≤ F64.truncVal v ∧ F64.truncVal v < 2 ^ 31) :
    int32Of v = F64.truncVal v := by
  unfold int32Of toSigned32; split <;> omega

/-- The low part of a representable magnitude is representable. -/
theorem F64.rep_mod {n : Nat} (h : F64.Rep n) (u : Nat) : F64.Rep (n % 2 ^ u) := by
  obtain ⟨m, hm, rfl⟩ := h
  obtain ⟨q, c, rfl, hc, hq, -⟩ := F64.exists_parts m
  rw [F64.magOf_add hc.le hq]
  have hq' : q ≤ 2045 := by rw [F64.infMag_eq] at hm; omega
  rcases Nat.le_total u q with hu | hu
  · rw [Nat.mod_eq_zero_of_dvd (Dvd.dvd.mul_left (pow_dvd_pow 2 hu) c)]
    exact F64.rep_zero
  · have : c * 2 ^ q % 2 ^ u = c % 2 ^ (u - q) * 2 ^ q := by
      rw [← Nat.mul_mod_mul_right, ← pow_add, Nat.sub_add_cancel hu]
    rw [this]
    exact F64.rep_mul_pow ((Nat.mod_le _ _).trans_lt hc) hq'

/-- The remainder of a binary64 by its integer part is representable. -/
theorem F64.rep_fract {v : Word} (h : F64.isFinite v = true) :
    F64.Rep (F64.scaled v - F64.truncVal v * F64.oneUnits).natAbs := by
  have hm : (F64.scaled v - F64.truncVal v * F64.oneUnits) = (F64.scaled v).tmod F64.oneUnits := by
    rw [Int.tmod_def, F64.truncVal, mul_comm]
  rw [hm, Int.natAbs_tmod, F64.scaled_natAbs, Int.natAbs_natCast, F64.oneUnits, F64.twoPow_eq]
  exact F64.rep_mod (F64.rep_mag h) _

/-- Where the integer part is a signed 32-bit integer, the remainder by `Int32Emu` is exact (40_int32.md R82). -/
theorem fsub_int32Emu {v : Word} (h : F64.isFinite v = true) (h0 : v ≠ 0x8000000000000000)
    (hr : -2 ^ 31 ≤ F64.truncVal v ∧ F64.truncVal v < 2 ^ 31) :
    F64.fsub v (int32Emu v) = F64.ofScaled (F64.scaled v - F64.truncVal v * F64.oneUnits) := by
  have hn : F64.scaled (int32Emu v) = F64.truncVal v * F64.oneUnits := by
    rw [scaled_int32Emu h, int32Of_of_range hr]
  rw [F64.fsub_exact h (isFinite_int32Emu h), hn]
  by_cases hz : F64.scaled v - F64.scaled (int32Emu v) = 0
  · right
    by_cases hs : F64.scaled v = 0
    · left
      rw [F64.eq_ofScaled h h0, F64.sign_ofScaled, hs]; rfl
    · by_cases hneg : F64.scaled v < 0
      · right
        have : F64.scaled (int32Emu v) = F64.scaled v := by omega
        rw [F64.sign_of_ne (by omega), this]; simpa using hneg
      · left
        rw [F64.sign_of_ne hs]; simpa using hneg
  · exact .inl hz

end Sys2Proof.Machine
end

