-- ==== Sys2Proof/Laws/Alea.lean ====
section
/-!
SUPPORT. Arithmetic on the binary64 values the engine works with: integers and multiples of 2^-32 of at most 53 bits,
on which `fadd`, `fsub`, `fmul` and `Int32Emu` are exact (42_alea.md R106, R108).
-/

namespace Sys2Proof.Machine

/-! ### Multiples of 2^-32 -/

theorem F64.rep_q32 {k : Int} (h : k.natAbs < 2 ^ 53) : F64.Rep (k * F64.q32Units).natAbs := by
  rw [Int.natAbs_mul, Int.natAbs_natCast, F64.q32Units, F64.twoPow_eq]
  exact F64.rep_mul_pow h (by decide)

theorem F64.scaled_ofQ32 {k : Int} (h : k.natAbs < 2 ^ 53) : F64.scaled (F64.ofQ32 k) = k * F64.q32Units :=
  F64.scaled_ofScaled (F64.rep_q32 h)

theorem F64.isFinite_ofQ32 {k : Int} (h : k.natAbs < 2 ^ 53) : F64.isFinite (F64.ofQ32 k) = true :=
  F64.isFinite_ofScaled (F64.rep_q32 h)

theorem F64.sign_ofQ32 (k : Int) : F64.sign (F64.ofQ32 k) = decide (k < 0) := by
  rw [F64.ofQ32, F64.sign_ofScaled, Bool.eq_iff_iff, decide_eq_true_iff, decide_eq_true_iff]
  exact ⟨fun h => by by_contra h'; exact absurd h (not_lt.2 (mul_nonneg (not_lt.1 h') (Int.natCast_nonneg _))),
    fun h => mul_neg_of_neg_of_pos h (Int.natCast_pos.2 F64.q32Units_pos)⟩

theorem F64.ofInt_eq_ofQ32 (r : Int) : F64.ofInt r = F64.ofQ32 (r * 2 ^ 32) := by
  rw [F64.ofInt, F64.ofQ32, F64.oneUnits_eq]
  push_cast; rw [mul_assoc]

/-- No value is -0.0. -/
theorem F64.ofScaled_ne_negZero (z : Int) : F64.ofScaled z ≠ 0x8000000000000000 := by
  intro h
  have hs := F64.sign_ofScaled z
  have hz : F64.roundMag 0 z.natAbs = 0 := by
    have := congrArg BitVec.toNat h
    rw [F64.ofScaled, F64.toNat_pack _ (F64.roundMag_lt 0 _)] at this
    have hlt := F64.roundMag_lt 0 z.natAbs
    rw [show (0x8000000000000000 : Word).toNat = 2 ^ 63 from rfl] at this
    split at this <;> omega
  have h0 : z = 0 := by
    by_contra hne
    have h1 : 1 ≤ z.natAbs := by omega
    have := F64.roundMag_mono 0 h1
    rw [hz, show F64.roundMag 0 1 = 1 from by decide] at this
    omega
  rw [h, h0] at hs
  exact absurd hs (by decide)

theorem F64.truncVal_ofQ32 {k : Int} (h : k.natAbs < 2 ^ 53) : F64.truncVal (F64.ofQ32 k) = k.tdiv (2 ^ 32) := by
  rw [F64.truncVal, F64.scaled_ofQ32 h, F64.oneUnits_eq]
  push_cast
  exact Int.mul_tdiv_mul_of_pos_left _ _ (Int.natCast_pos.2 F64.q32Units_pos)

theorem F64.val_ofQ32 {k : Int} (h : k.natAbs < 2 ^ 53) : F64.val (F64.ofQ32 k) * 2 ^ 32 = k := by
  have hq : (F64.q32Units : Rat) ≠ 0 := by exact_mod_cast F64.q32Units_pos.ne'
  rw [F64.val, F64.scaled_ofQ32 h, F64.oneUnits_eq, Int.cast_mul, Nat.cast_mul, Int.cast_natCast,
    mul_div_mul_right _ _ hq, Nat.cast_pow, Nat.cast_ofNat, div_mul_cancel₀ _ (by positivity)]

theorem F64.val_ofInt {r : Int} (h : r.natAbs < 2 ^ 53) : F64.val (F64.ofInt r) = r := by
  rw [F64.val, F64.scaled_ofInt h]
  push_cast
  rw [mul_div_cancel_right₀ _ (by exact_mod_cast F64.oneUnits_pos.ne')]

/-! ### Exact operations -/

theorem F64.fadd_ofQ32 {a b : Int} (ha : a.natAbs < 2 ^ 53) (hb : b.natAbs < 2 ^ 53) :
    F64.fadd (F64.ofQ32 a) (F64.ofQ32 b) = F64.ofQ32 (a + b) := by
  rw [F64.fadd_exact (F64.isFinite_ofQ32 ha) (F64.isFinite_ofQ32 hb), F64.scaled_ofQ32 ha, F64.scaled_ofQ32 hb,
    ← add_mul, F64.ofQ32]
  rw [F64.sign_ofQ32, F64.sign_ofQ32]
  by_cases h0 : 0 ≤ a
  · exact .inr (.inl (by simpa using h0))
  · by_cases h1 : 0 ≤ b
    · exact .inr (.inr (by simpa using h1))
    · left
      rw [F64.scaled_ofQ32 ha, F64.scaled_ofQ32 hb, ← add_mul]
      exact mul_ne_zero (by omega) F64.q32Units_ne

theorem F64.fsub_ofQ32 {a b : Int} (ha : a.natAbs < 2 ^ 53) (hb : b.natAbs < 2 ^ 53) :
    F64.fsub (F64.ofQ32 a) (F64.ofQ32 b) = F64.ofQ32 (a - b) := by
  rw [F64.fsub_exact (F64.isFinite_ofQ32 ha) (F64.isFinite_ofQ32 hb), F64.scaled_ofQ32 ha, F64.scaled_ofQ32 hb,
    ← sub_mul, F64.ofQ32]
  rw [F64.sign_ofQ32, F64.sign_ofQ32]
  by_cases h0 : 0 ≤ a
  · exact .inr (.inl (by simpa using h0))
  · by_cases h1 : b < 0
    · exact .inr (.inr (by simpa using h1))
    · left
      rw [F64.scaled_ofQ32 ha, F64.scaled_ofQ32 hb, ← sub_mul]
      exact mul_ne_zero (by omega) F64.q32Units_ne

theorem F64.fmul_ofQ32_ofInt {a b : Int} (ha : a.natAbs < 2 ^ 53) (hb : b.natAbs < 2 ^ 53)
    (hab : (a * b).natAbs < 2 ^ 53) (h0 : a * b ≠ 0 ∨ (a < 0 ↔ b < 0)) :
    F64.fmul (F64.ofQ32 a) (F64.ofInt b) = F64.ofQ32 (a * b) := by
  refine F64.fmul_exact (F64.isFinite_ofQ32 ha) (F64.isFinite_ofInt hb) ?_ (F64.rep_q32 hab) ?_
  · rw [F64.scaled_ofQ32 ha, F64.scaled_ofInt hb, mul_mul_mul_comm, mul_assoc (a * b)]
  · rcases h0 with h | h
    · exact .inl (mul_ne_zero h F64.q32Units_ne)
    · right; rw [F64.sign_ofQ32, F64.sign_ofInt, decide_eq_decide]; exact h

/-! ### The constants (00_scope.md R8) -/

theorem aleaA_eq : aleaA = F64.ofInt 2091639 := by decide +kernel

theorem twoM32_eq : twoM32 = F64.ofQ32 1 := by decide +kernel

theorem two32_eq : two32 = F64.ofInt (2 ^ 32) := by decide +kernel

theorem oneF64_eq : oneF64 = F64.ofQ32 (2 ^ 32) := by decide +kernel

theorem accInit_eq : accInit = F64.ofInt 4022871197 := by decide +kernel

theorem fmul_ofInt_twoM32 {c : Int} (h : c.natAbs < 2 ^ 53) : F64.fmul (F64.ofInt c) twoM32 = F64.ofQ32 c := by
  rw [twoM32_eq]
  refine F64.fmul_exact (F64.isFinite_ofInt h) (F64.isFinite_ofQ32 (by decide)) ?_ (F64.rep_q32 h) ?_
  · rw [F64.scaled_ofInt h, F64.scaled_ofQ32 (by decide), one_mul, mul_right_comm]
  · by_cases hc : c = 0
    · right; rw [hc, F64.sign_ofInt, F64.sign_ofQ32]; rfl
    · exact .inl (mul_ne_zero hc F64.q32Units_ne)

/-! ### The functions of 41_mash.md and 42_alea.md -/

/-- The hash value is exact (41_mash.md R91). -/
theorem mashOut_of_isFinite {acc : Word} (h : F64.isFinite acc = true) : mashOut acc = F64.ofQ32 (int32Of acc) := by
  rw [mashOut, int32Emu_of_isFinite h, fmul_ofInt_twoM32 (int32Of_natAbs_lt acc)]

/-- The sum of the recurrence is exact where the words are in range (42_alea.md R108). -/
theorem aleaY_exact {k c : Nat} (hk : k < 2 ^ 32) (hc : c ≤ 2091639) :
    aleaY (F64.ofQ32 k) (F64.ofInt c) = F64.ofQ32 (2091639 * k + c : Nat) := by
  rw [aleaY, fmul_ofInt_twoM32 (by omega), aleaA_eq,
    F64.fmul_ofQ32_ofInt (by omega) (by decide) (by omega) (.inr (by omega)), F64.fadd_ofQ32 (by omega) (by omega)]
  congr 1; push_cast; ring

/-- The integer part of a non-negative multiple of 2^-32 below 2^31. -/
theorem int32Of_ofQ32 {n : Nat} (h : n < 2 ^ 53) : int32Of (F64.ofQ32 n) = (n / 2 ^ 32 : Nat) := by
  have ht : F64.truncVal (F64.ofQ32 n) = (n / 2 ^ 32 : Nat) := by
    rw [F64.truncVal_ofQ32 (by omega)]; rfl
  rw [int32Of_of_range (by rw [ht]; omega), ht]

/-- One step of the recurrence on words in range: the integer multiply-with-carry step (42_alea.md R108). -/
theorem aleaStep_exact {s : State} {k c : Nat} (hk : k < 2 ^ 32) (hc : c ≤ 2091639) (hs : s.s0 = F64.ofQ32 k)
    (hx : s.x = F64.ofInt c) :
    aleaStep s = writeAlea s.s1 s.s2 (F64.ofQ32 ((2091639 * k + c) % 2 ^ 32 : Nat))
      (F64.ofInt ((2091639 * k + c) / 2 ^ 32 : Nat)) s := by
  obtain ⟨n, hn⟩ : ∃ n, n = 2091639 * k + c := ⟨_, rfl⟩
  have hlt : n < 2 ^ 53 := by omega
  have hi : int32Emu (F64.ofQ32 n) = F64.ofInt (n / 2 ^ 32 : Nat) := by
    rw [int32Emu_of_isFinite (F64.isFinite_ofQ32 (by omega)), int32Of_ofQ32 hlt]
  rw [aleaStep, hs, hx, aleaY_exact hk hc, ← hn]
  simp only [hi]
  rw [F64.ofInt_eq_ofQ32, F64.fsub_ofQ32 (by omega) (by omega)]
  congr 2
  omega

/-- A binary64 whose bits 62:0 are 0 is a zero. -/
theorem F64.scaled_of_low_zero {w : Word} (h : w.extractLsb 62 0 = 0) : F64.scaled w = 0 := by
  have h0 : w.toNat % 2 ^ 63 = 0 := by
    have := congrArg BitVec.toNat h
    rwa [BitVec.extractLsb_toNat, Nat.shiftRight_zero] at this
  have hm : F64.mag w = 0 := by rw [F64.mag_eq, h0]; rfl
  simp only [F64.scaled, hm]; split <;> rfl

theorem F64.lt0_ofQ32 {k : Int} (h : k.natAbs < 2 ^ 53) : F64.lt0 (F64.ofQ32 k) = decide (k < 0) := by
  rw [F64.lt0, F64.isNaN_of_isFinite (F64.isFinite_ofQ32 h), F64.sign_ofQ32]
  by_cases h0 : k < 0
  · have hb : (F64.ofQ32 k).extractLsb 62 0 ≠ 0 := by
      intro hz
      have hs := F64.scaled_of_low_zero hz
      rw [F64.scaled_ofQ32 h] at hs
      exact absurd hs (mul_ne_zero (by omega) F64.q32Units_ne)
    rw [bne_iff_ne.2 hb]; simp [h0]
  · simp [h0]

/-- The fold of a hash into a word is exact (42_alea.md R106). -/
theorem foldWord_exact {a h : Int} (ha : -2 ^ 31 ≤ a ∧ a < 2 ^ 31) (hh : -2 ^ 31 ≤ h ∧ h < 2 ^ 31) :
    foldWord (F64.ofQ32 a) (F64.ofQ32 h) = F64.ofQ32 (if a - h < 0 then a - h + 2 ^ 32 else a - h) := by
  rw [foldWord, F64.fsub_ofQ32 (by omega) (by omega), F64.lt0_ofQ32 (by omega)]
  by_cases h0 : a - h < 0
  · rw [if_pos h0, if_pos (decide_eq_true h0), oneF64_eq, F64.fadd_ofQ32 (by omega) (by decide)]
  · rw [if_neg h0, if_neg (by rw [decide_eq_true_iff]; exact h0)]

/-- UINT32's integer is exact on a word in range (42_alea.md R109). -/
theorem uint32Of_ofQ32 {k : Nat} (h : k < 2 ^ 32) : uint32Of (F64.ofQ32 k) = BitVec.ofNat 32 k := by
  have hp : F64.fmul (F64.ofQ32 k) two32 = F64.ofInt k := by
    rw [two32_eq]
    refine F64.fmul_exact (F64.isFinite_ofQ32 (by omega)) (F64.isFinite_ofInt (by decide)) ?_
      (F64.rep_int (by omega)) (.inr ?_)
    · rw [F64.scaled_ofQ32 (by omega), F64.scaled_ofInt (by decide), F64.oneUnits_eq]
      push_cast; ring
    · rw [F64.sign_ofQ32, F64.sign_ofInt, decide_eq_decide]; omega
  have hf : F64.floorVal (F64.ofInt k) = k := by
    rw [F64.floorVal, F64.scaled_ofInt (by omega)]
    exact Int.mul_fdiv_cancel _ F64.oneUnits_ne
  rw [uint32Of, hp, hf]
  simp only [F64.isFinite_ofInt (r := (k : Int)) (by omega)]
  rw [if_pos (by simp; omega)]
  rfl

end Sys2Proof.Machine
end

