-- ==== Sys2Proof/Laws/Decode.lean ====
section
/-!
SUPPORT. The fields of a CMD value and of an encoded command as numbers, and what a value that decodes looks like
(30_encoding.md R66, R69).
-/

namespace Sys2Proof

theorem toNat_hiField (v : Word) : (hiField v).toNat = v.toNat / 2 ^ 32 := by
  have := v.isLt
  simp [hiField, BitVec.extractLsb_toNat, Nat.shiftRight_eq_div_pow]
  omega

theorem toNat_opcField (v : Word) : (opcField v).toNat = v.toNat / 2 ^ 24 % 2 ^ 8 := by
  simp [opcField, BitVec.extractLsb_toNat, Nat.shiftRight_eq_div_pow]

theorem toNat_rsvField (v : Word) : (rsvField v).toNat = v.toNat / 2 ^ 16 % 2 ^ 8 := by
  simp [rsvField, BitVec.extractLsb_toNat, Nat.shiftRight_eq_div_pow]

theorem toNat_immField (v : Word) : (immField v).toNat = v.toNat % 2 ^ 16 := by
  simp [immField, BitVec.extractLsb_toNat]

theorem toNat_encode (i : Instr) : (encode i).toNat = (opcodeOf i).toNat * 2 ^ 24 + (immediateOf i).toNat := by
  have hi := (immediateOf i).isLt
  have ho := (opcodeOf i).isLt
  simp only [encode, BitVec.toNat_append]
  rw [← Nat.shiftLeft_add_eq_or_of_lt hi, ← Nat.shiftLeft_add_eq_or_of_lt (show (0#8).toNat < 2 ^ 8 by decide),
    ← Nat.shiftLeft_add_eq_or_of_lt ho]
  simp only [Nat.shiftLeft_eq, BitVec.toNat_ofNat, Nat.zero_mod]
  omega

@[simp] theorem hiField_encode (i : Instr) : hiField (encode i) = 0 := by
  have := (immediateOf i).isLt
  have := (opcodeOf i).isLt
  apply BitVec.eq_of_toNat_eq
  rw [toNat_hiField, toNat_encode]
  simp; omega

@[simp] theorem rsvField_encode (i : Instr) : rsvField (encode i) = 0 := by
  have := (immediateOf i).isLt
  apply BitVec.eq_of_toNat_eq
  rw [toNat_rsvField, toNat_encode]
  simp; omega

@[simp] theorem opcField_encode (i : Instr) : opcField (encode i) = opcodeOf i := by
  have := (immediateOf i).isLt
  have := (opcodeOf i).isLt
  apply BitVec.eq_of_toNat_eq
  rw [toNat_opcField, toNat_encode]
  omega

@[simp] theorem immField_encode (i : Instr) : immField (encode i) = immediateOf i := by
  have := (immediateOf i).isLt
  apply BitVec.eq_of_toNat_eq
  rw [toNat_immField, toNat_encode]
  omega

/-- A value with an immediate of 0 where one is asked for decodes to the command asked for. -/
theorem noImmediate_ok {v : Word} {i j : Instr} (h : noImmediate v i = .ok j) : immField v = 0 ∧ j = i := by
  unfold noImmediate at h
  split at h
  · exact ⟨‹_›, by simpa using h.symm⟩
  · cases h

/-- A value that decodes holds the fields of its command. -/
theorem decodeCmd_ok {v : Word} {i : Instr} (h : decodeCmd v = .ok i) :
    hiField v = 0 ∧ rsvField v = 0 ∧ opcField v = opcodeOf i ∧ immField v = immediateOf i := by
  unfold decodeCmd at h
  split at h
  · cases h
  split at h
  · cases h
  rename_i h1 h2
  refine ⟨not_not.1 h1, not_not.1 h2, ?_⟩
  split at h <;> rename_i ho
  case h_2 => obtain rfl : _ = i := by simpa using h
              exact ⟨BitVec.eq_of_toNat_eq ho, rfl⟩
  case h_10 => cases h
  all_goals
    obtain ⟨h3, rfl⟩ := noImmediate_ok h
    exact ⟨BitVec.eq_of_toNat_eq ho, h3⟩

end Sys2Proof
end

