-- ==== Sys2Proof/Laws/Mash.lean ====
section
/-!
SUPPORT. Values as units, and what the truncation does to a non-negative value: the lemmas for the bounds of
41_mash.md R95.
-/

namespace Sys2Proof.Machine

theorem F64.val_nonneg_iff (b : Word) : 0 ≤ F64.val b ↔ 0 ≤ F64.scaled b := by
  have hq : (0 : ℚ) < (F64.oneUnits : Rat) := by exact_mod_cast F64.oneUnits_pos
  rw [F64.val, div_nonneg_iff]
  constructor
  · rintro (h | h)
    · exact_mod_cast h.1
    · exact absurd h.2 (not_le.2 hq)
  · intro h; exact .inl ⟨by exact_mod_cast h, hq.le⟩

theorem F64.val_le_iff (b : Word) (k : ℚ) : F64.val b ≤ k ↔ (F64.scaled b : ℚ) ≤ k * F64.oneUnits := by
  have hq : (0 : ℚ) < (F64.oneUnits : Rat) := by exact_mod_cast F64.oneUnits_pos
  rw [F64.val, div_le_iff₀ hq]

theorem F64.val_lt_iff (b : Word) (k : ℚ) : F64.val b < k ↔ (F64.scaled b : ℚ) < k * F64.oneUnits := by
  have hq : (0 : ℚ) < (F64.oneUnits : Rat) := by exact_mod_cast F64.oneUnits_pos
  rw [F64.val, div_lt_iff₀ hq]

theorem F64.ne_negZero_of_nonNeg {b : Word} (h : F64.NonNeg b) : b ≠ 0x8000000000000000 := by
  rintro rfl
  exact absurd h.2 (by decide)

/-- The accumulator invariant in units. -/
theorem accInv_iff (acc : Word) : AccInv acc ↔ F64.NonNeg acc ∧ F64.mag acc ≤ (2 ^ 32 + 2 ^ 31) * F64.oneUnits := by
  unfold AccInv
  rw [F64.val_nonneg_iff, F64.val_le_iff]
  constructor
  · rintro ⟨h1, h2, h3, h4⟩
    have e := F64.eq_ofScaled h1 h2
    have hs : F64.sign acc = false := by
      rw [e, F64.sign_ofScaled]; simpa using h3
    refine ⟨⟨h1, hs⟩, ?_⟩
    rw [F64.scaled_nonneg hs] at h4
    exact_mod_cast h4
  · rintro ⟨h1, h2⟩
    refine ⟨h1.1, F64.ne_negZero_of_nonNeg h1, ?_, ?_⟩
    · rw [F64.scaled_nonneg h1.2]; positivity
    · rw [F64.scaled_nonneg h1.2]; exact_mod_cast h2

theorem F64.nonNeg_ofInt {k : Nat} (h : k < 2 ^ 53) :
    F64.NonNeg (F64.ofInt k) ∧ F64.mag (F64.ofInt k) = k * F64.oneUnits := by
  have h' : (k : Int).natAbs < 2 ^ 53 := by simpa using h
  have hn : F64.NonNeg (F64.ofInt k) := ⟨F64.isFinite_ofInt h', by rw [F64.sign_ofInt]; simp⟩
  refine ⟨hn, ?_⟩
  have := F64.scaled_ofInt h'
  rw [F64.scaled_nonneg hn.2] at this
  exact_mod_cast this

theorem F64.rep_ofNat {k : Nat} (h : k < 2 ^ 53) : F64.Rep (k * F64.oneUnits) := by
  have := F64.rep_int (r := k) (by simpa using h)
  rwa [Int.natAbs_mul, Int.natAbs_natCast, Int.natAbs_natCast] at this

theorem F64.truncVal_of_nonNeg {h : Word} (hn : F64.NonNeg h) : F64.truncVal h = (F64.mag h / F64.oneUnits : Nat) := by
  rw [F64.truncVal, F64.scaled_nonneg hn.2]; rfl

/-- Everything `Int32Emu` does to a non-negative value below 2^31: the plain truncation, its bound, and the exact
remainder. -/
theorem int32Emu_of_nonNeg {h : Word} (hn : F64.NonNeg h) {K : Nat} (hK : K < 2 ^ 31)
    (hb : F64.mag h ≤ K * F64.oneUnits) :
    int32Emu h = F64.ofInt (F64.truncVal h) ∧ F64.NonNeg (int32Emu h) ∧
      F64.mag (int32Emu h) = F64.mag h / F64.oneUnits * F64.oneUnits ∧ F64.mag h / F64.oneUnits ≤ K ∧
      F64.NonNeg (F64.fsub h (int32Emu h)) ∧ F64.mag (F64.fsub h (int32Emu h)) = F64.mag h % F64.oneUnits := by
  have ht := F64.truncVal_of_nonNeg hn
  have hle : F64.mag h / F64.oneUnits ≤ K := Nat.div_le_of_le_mul (by rwa [mul_comm])
  have hr : -2 ^ 31 ≤ F64.truncVal h ∧ F64.truncVal h < 2 ^ 31 := by
    rw [ht]; clear hb ht; generalize F64.mag h / F64.oneUnits = q at *; omega
  have he : int32Emu h = F64.ofInt (F64.truncVal h) := by rw [int32Emu_of_isFinite hn.1, int32Of_of_range hr]
  have hk := F64.nonNeg_ofInt (k := F64.mag h / F64.oneUnits) (by omega)
  refine ⟨he, by rw [he, ht]; exact hk.1, by rw [he, ht]; exact hk.2, hle, ?_⟩
  have hs := fsub_int32Emu hn.1 (F64.ne_negZero_of_nonNeg hn) hr
  have hz : F64.scaled h - F64.truncVal h * F64.oneUnits = ((F64.mag h % F64.oneUnits : Nat) : Int) := by
    rw [F64.scaled_nonneg hn.2, ht]
    have := congrArg (Nat.cast : Nat → Int) (Nat.div_add_mod (F64.mag h) F64.oneUnits)
    push_cast at this ⊢
    linarith
  have hrep := F64.rep_fract hn.1
  rw [hz] at hrep
  rw [hs, hz]
  have hnn : F64.NonNeg (F64.ofScaled ((F64.mag h % F64.oneUnits : Nat) : Int)) :=
    ⟨F64.isFinite_ofScaled hrep, by rw [F64.sign_ofScaled, decide_eq_false_iff_not]; omega⟩
  refine ⟨hnn, ?_⟩
  have := F64.scaled_ofScaled hrep
  rw [F64.scaled_nonneg hnn.2] at this
  exact_mod_cast this

end Sys2Proof.Machine
end

