-- ==== Sys2Proof/Laws/PerInstr.lean ====
section
/-!
SUPPORT. The statement made of every command as syntax: its encoding is legal (30_encoding.md R69) and holds the fields
of R66 in their places.
-/

namespace Sys2Proof

theorem legalCmd_of_fields {v : Word} (h1 : hiField v = 0) (h2 : rsvField v = 0)
    (h3 : assignedOpcodes.contains (opcField v) = true) (h4 : opcField v = 0x02 ∨ immField v = 0) :
    legalCmd v = true := by
  unfold hiField at h1
  unfold rsvField at h2
  unfold opcField at h3 h4
  unfold immField at h4
  unfold legalCmd
  rw [h1, h2, h3]
  rcases h4 with h4 | h4 <;> simp [h4]

namespace Laws.EncodingLegal

/-- The encoding of a well-formed command is a legal CMD value whose fields are HI = 0, the command's OPC, RSV = 0 and
the command's immediate. -/
def Statement (i : Instr) : Prop :=
  i.wellFormed = true ∧ legalCmd (encode i) = true ∧ hiField (encode i) = 0 ∧ opcField (encode i) = opcodeOf i ∧
    rsvField (encode i) = 0 ∧ immField (encode i) = immediateOf i

theorem of_fields {i : Instr} (hw : i.wellFormed = true) (h3 : assignedOpcodes.contains (opcodeOf i) = true)
    (h4 : opcodeOf i = 0x02 ∨ immediateOf i = 0) : Statement i :=
  ⟨hw, legalCmd_of_fields (hiField_encode i) (rsvField_encode i) (by rwa [opcField_encode])
      (by rwa [opcField_encode, immField_encode]),
    hiField_encode i, opcField_encode i, rsvField_encode i, immField_encode i⟩

theorem mashInit : Statement .mashInit := of_fields rfl rfl (.inr rfl)

theorem mashStep (cu : CodeUnit) : Statement (.mashStep cu) := of_fields (decide_eq_true cu.isLt) rfl (.inl rfl)

theorem mashOut : Statement .mashOut := of_fields rfl rfl (.inr rfl)

theorem trunc32 : Statement .trunc32 := of_fields rfl rfl (.inr rfl)

theorem seedBegin : Statement .seedBegin := of_fields rfl rfl (.inr rfl)

theorem seedFold : Statement .seedFold := of_fields rfl rfl (.inr rfl)

theorem random : Statement .random := of_fields rfl rfl (.inr rfl)

theorem uint32 : Statement .uint32 := of_fields rfl rfl (.inr rfl)

theorem clrErr : Statement .clrErr := of_fields rfl rfl (.inr rfl)

end Laws.EncodingLegal

end Sys2Proof
end

