-- ==== Sys2Proof/Laws/Rounding.lean ====
section
/-!
SUPPORT. What rounding can do, said once: the rounded magnitude is the nearest one, ties to even, and it is finite below
the overflow threshold.
-/

namespace Sys2Proof.Machine

/-- `nearestEven` is nearest: no multiple of 2 ^ q is nearer to `n`, and of two equally near the even one is taken. -/
theorem F64.nearestEven_nearest (n q c : Nat) :
    ((F64.nearestEven n q * 2 ^ q : Nat) - (n : Int)).natAbs ≤ ((c * 2 ^ q : Nat) - (n : Int)).natAbs ∧
      (((F64.nearestEven n q * 2 ^ q : Nat) - (n : Int)).natAbs = ((c * 2 ^ q : Nat) - (n : Int)).natAbs →
        c ≠ F64.nearestEven n q → F64.nearestEven n q % 2 = 0) := by
  have h1 := Nat.div_add_mod n (2 ^ q)
  have h2 := Nat.mod_lt n (Nat.two_pow_pos q)
  obtain ⟨D, hD⟩ : ∃ D, D = 2 ^ q := ⟨_, rfl⟩
  simp only [F64.nearestEven, ← hD] at *
  generalize n / D = d at *
  generalize n % D = r at *
  subst h1
  -- a multiple of D is below, at or next to `d * D`, or beyond that
  have hc : (c < d ∧ c * D + D ≤ D * d) ∨ c = d ∨ c = d + 1 ∨ (d + 2 ≤ c ∧ D * d + 2 * D ≤ c * D) := by
    rcases lt_trichotomy c d with h | h | h
    · exact .inl ⟨h, by nlinarith [Nat.mul_le_mul_right D (Nat.succ_le_of_lt h)]⟩
    · exact .inr (.inl h)
    · rcases Nat.eq_or_lt_of_le h with h | h
      · exact .inr (.inr (.inl h.symm))
      · exact .inr (.inr (.inr ⟨h, by nlinarith [Nat.mul_le_mul_right D h]⟩))
  have hd : d * D = D * d := mul_comm _ _
  have hd1 : (d + 1) * D = D * d + D := by ring
  generalize D * d = X at *
  split <;> rename_i hs <;> simp at hs
  all_goals
    rcases hc with ⟨-, hc⟩ | rfl | rfl | ⟨-, hc⟩ <;> simp only [hd, hd1] <;>
      exact ⟨by omega, fun _ _ => by omega⟩

/-- `roundMag` is nearest: no finite magnitude is nearer, and of two equally near the result is the even one. -/
theorem F64.roundMag_nearest (k n m : Nat) (hR : F64.roundMag k n < F64.infMag) (hm : m < F64.infMag) :
    ((F64.magOf (F64.roundMag k n) * 2 ^ k : Nat) - (n : Int)).natAbs ≤
        ((F64.magOf m * 2 ^ k : Nat) - (n : Int)).natAbs ∧
      (((F64.magOf (F64.roundMag k n) * 2 ^ k : Nat) - (n : Int)).natAbs =
          ((F64.magOf m * 2 ^ k : Nat) - (n : Int)).natAbs →
        F64.magOf m ≠ F64.magOf (F64.roundMag k n) → F64.roundMag k n % 2 = 0) := by
  have hv := F64.magOf_round k n hR
  have hR' : F64.roundMag k n = (F64.droppedBits k n - k) * 2 ^ 52 + F64.nearestEven n (F64.droppedBits k n) := by
    unfold F64.roundMag at hR ⊢; omega
  have hpar : F64.roundMag k n % 2 = F64.nearestEven n (F64.droppedBits k n) % 2 := by rw [hR']; omega
  have hne : F64.magOf m ≠ F64.magOf (F64.roundMag k n) →
      F64.magOf m * 2 ^ k ≠ F64.nearestEven n (F64.droppedBits k n) * 2 ^ F64.droppedBits k n := by
    intro h e; rw [← hv] at e; exact h (Nat.eq_of_mul_eq_mul_right (Nat.two_pow_pos k) e)
  rw [hpar, hv]
  obtain ⟨p, c, rfl, hc, hp, -⟩ := F64.exists_parts m
  rw [F64.magOf_add hc.le hp, mul_assoc, ← pow_add] at *
  have hdk := F64.le_droppedBits k n
  rcases Nat.le_total (F64.droppedBits k n) (p + k) with h | h
  · have e : c * 2 ^ (p+k) = (c * 2 ^ (p + k - F64.droppedBits k n)) * 2 ^ F64.droppedBits k n := by
      rw [mul_assoc, ← pow_add]; congr 2; omega
    rw [e]
    exact ⟨(F64.nearestEven_nearest _ _ _).1, fun h1 h2 =>
      (F64.nearestEven_nearest n _ _).2 h1 fun h3 => hne h2 (by rw [e, h3])⟩
  · rcases Nat.eq_or_lt_of_le h with h | h
    · rw [h]
      exact ⟨(F64.nearestEven_nearest _ _ _).1, fun h1 h2 =>
        (F64.nearestEven_nearest n _ c).2 h1 fun h3 => hne h2 (by rw [h, ← h3])⟩
    · have hlog : F64.droppedBits k n + 52 = n.log2 := by unfold F64.droppedBits at *; omega
      have h2 : 2 ^ 52 * 2 ^ F64.droppedBits k n ≤ n := by
        rw [← pow_add, show 52 + F64.droppedBits k n = n.log2 by omega]
        exact Nat.log2_self_le (by rintro rfl; simp at hlog)
      have h3 : c * 2 ^ (p+k) < 2 ^ 52 * 2 ^ F64.droppedBits k n := by
        calc c * 2 ^ (p+k) < 2 ^ 53 * 2 ^ (p+k) := Nat.mul_lt_mul_of_pos_right hc (Nat.two_pow_pos _)
          _ = 2 ^ (53 + (p + k)) := by rw [← pow_add]
          _ ≤ 2 ^ (52 + F64.droppedBits k n) := Nat.pow_le_pow_right (by decide) (by omega)
          _ = _ := by rw [pow_add]
      have h4 := (F64.nearestEven_nearest n (F64.droppedBits k n) (2 ^ 52)).1
      generalize F64.nearestEven n (F64.droppedBits k n) * 2 ^ F64.droppedBits k n = A at *
      generalize 2 ^ 52 * 2 ^ F64.droppedBits k n = B at *
      generalize c * 2 ^ (p+k) = C at *
      constructor
      · omega
      · intro e; omega

/-- `roundMag` overflows only from the threshold on. -/
theorem F64.roundMag_lt_infMag (k n : Nat) (h : n < (F64.twoPow 2098 - F64.twoPow 2044) * 2 ^ k) :
    F64.roundMag k n < F64.infMag := by
  rw [F64.twoPow_add 54 2044, ← Nat.sub_one_mul, F64.twoPow_eq] at h
  have hb := (F64.nearestEven_bounds k n).1
  have hle : F64.droppedBits k n ≤ 2045 + k := by
    by_contra hc
    have hlog : F64.droppedBits k n + 52 = n.log2 := by unfold F64.droppedBits at *; omega
    have h2 : 2 ^ n.log2 ≤ n := Nat.log2_self_le (by rintro rfl; simp at hlog)
    have h3 : n < 2 ^ (54 + 2044 + k) := by
      rw [pow_add, pow_add]
      exact h.trans_le (Nat.mul_le_mul_right _ (Nat.mul_le_mul_right _ (by norm_num)))
    have := Nat.pow_lt_pow_iff_right (a := 2) (by decide) |>.1 (lt_of_le_of_lt h2 h3)
    omega
  rw [F64.infMag_eq]
  unfold F64.roundMag
  rcases Nat.lt_or_ge (F64.droppedBits k n) (2045 + k) with hlt | hge
  · omega
  · have hd : F64.droppedBits k n = 2045 + k := by omega
    have : F64.nearestEven n (F64.droppedBits k n) < 2 ^ 53 := by
      rw [hd]
      have e : (2 ^ 54 - 1) * 2 ^ 2044 * 2 ^ k = (2 ^ 54-1) * 2 ^ (2044+k) := by rw [mul_assoc, ← pow_add]
      rw [e] at h
      have e2 : (2 : Nat) ^ (2045+k) = 2 * 2 ^ (2044+k) := by rw [show 2045 + k = 2044 + k + 1 by omega, pow_succ]; ring
      have h1 := Nat.div_add_mod n (2 ^ (2045+k))
      simp only [F64.nearestEven]
      rw [e2] at *
      generalize 2 ^ (2044+k) = D at *
      have hq : n / (2*D) < 2 ^ 53 := by
        rw [Nat.div_lt_iff_lt_mul (by omega)]; omega
      generalize hqq : n / (2*D) = q at *
      generalize n % (2*D) = r at *
      split
      · rename_i hs
        by_contra hc
        obtain rfl : q = 2 ^ 53 - 1 := by omega
        simp at hs
        omega
      · exact hq
    omega

end Sys2Proof.Machine
end

