-- ==== Sys2Proof/Laws/State.lean ====
section
/-!
SUPPORT. One lemma per field per update of Sys2Proof/Machine/Ops.lean, true by definition, so that no later proof
unfolds a record update.
-/

namespace Sys2Proof.Machine

/-! ### writeAcc -/

@[simp] theorem writeAcc_acc (v : Word) (s : State) : (writeAcc v s).acc = v := rfl
@[simp] theorem writeAcc_s0 (v : Word) (s : State) : (writeAcc v s).s0 = s.s0 := rfl
@[simp] theorem writeAcc_s1 (v : Word) (s : State) : (writeAcc v s).s1 = s.s1 := rfl
@[simp] theorem writeAcc_s2 (v : Word) (s : State) : (writeAcc v s).s2 = s.s2 := rfl
@[simp] theorem writeAcc_x (v : Word) (s : State) : (writeAcc v s).x = s.x := rfl
@[simp] theorem writeAcc_data (v : Word) (s : State) : (writeAcc v s).data = s.data := rfl
@[simp] theorem writeAcc_result (v : Word) (s : State) : (writeAcc v s).result = s.result := rfl
@[simp] theorem writeAcc_phase (v : Word) (s : State) : (writeAcc v s).phase = s.phase := rfl
@[simp] theorem writeAcc_err (v : Word) (s : State) : (writeAcc v s).err = s.err := rfl
@[simp] theorem writeAcc_pending (v : Word) (s : State) : (writeAcc v s).pending = s.pending := rfl
@[simp] theorem writeAcc_reads (v : Word) (s : State) : (writeAcc v s).reads = s.reads := rfl
@[simp] theorem writeAcc_faultMark (v : Word) (s : State) : (writeAcc v s).faultMark = s.faultMark := rfl
@[simp] theorem writeAcc_abandonedAcks (v : Word) (s : State) : (writeAcc v s).abandonedAcks = s.abandonedAcks := rfl
@[simp] theorem writeAcc_freeCount (v : Word) (s : State) : (writeAcc v s).freeCount = s.freeCount := rfl

/-! ### writeData -/

@[simp] theorem writeData_acc (v : Word) (s : State) : (writeData v s).acc = s.acc := rfl
@[simp] theorem writeData_s0 (v : Word) (s : State) : (writeData v s).s0 = s.s0 := rfl
@[simp] theorem writeData_s1 (v : Word) (s : State) : (writeData v s).s1 = s.s1 := rfl
@[simp] theorem writeData_s2 (v : Word) (s : State) : (writeData v s).s2 = s.s2 := rfl
@[simp] theorem writeData_x (v : Word) (s : State) : (writeData v s).x = s.x := rfl
@[simp] theorem writeData_data (v : Word) (s : State) : (writeData v s).data = v := rfl
@[simp] theorem writeData_result (v : Word) (s : State) : (writeData v s).result = s.result := rfl
@[simp] theorem writeData_phase (v : Word) (s : State) : (writeData v s).phase = s.phase := rfl
@[simp] theorem writeData_err (v : Word) (s : State) : (writeData v s).err = s.err := rfl
@[simp] theorem writeData_pending (v : Word) (s : State) : (writeData v s).pending = s.pending := rfl
@[simp] theorem writeData_reads (v : Word) (s : State) : (writeData v s).reads = s.reads := rfl
@[simp] theorem writeData_faultMark (v : Word) (s : State) : (writeData v s).faultMark = s.faultMark := rfl
@[simp] theorem writeData_abandonedAcks (v : Word) (s : State) : (writeData v s).abandonedAcks = s.abandonedAcks := rfl
@[simp] theorem writeData_freeCount (v : Word) (s : State) : (writeData v s).freeCount = s.freeCount := rfl

/-! ### writeResult -/

@[simp] theorem writeResult_acc (v : Word) (s : State) : (writeResult v s).acc = s.acc := rfl
@[simp] theorem writeResult_s0 (v : Word) (s : State) : (writeResult v s).s0 = s.s0 := rfl
@[simp] theorem writeResult_s1 (v : Word) (s : State) : (writeResult v s).s1 = s.s1 := rfl
@[simp] theorem writeResult_s2 (v : Word) (s : State) : (writeResult v s).s2 = s.s2 := rfl
@[simp] theorem writeResult_x (v : Word) (s : State) : (writeResult v s).x = s.x := rfl
@[simp] theorem writeResult_data (v : Word) (s : State) : (writeResult v s).data = s.data := rfl
@[simp] theorem writeResult_result (v : Word) (s : State) : (writeResult v s).result = v := rfl
@[simp] theorem writeResult_phase (v : Word) (s : State) : (writeResult v s).phase = s.phase := rfl
@[simp] theorem writeResult_err (v : Word) (s : State) : (writeResult v s).err = s.err := rfl
@[simp] theorem writeResult_pending (v : Word) (s : State) : (writeResult v s).pending = s.pending := rfl
@[simp] theorem writeResult_reads (v : Word) (s : State) : (writeResult v s).reads = s.reads := rfl
@[simp] theorem writeResult_faultMark (v : Word) (s : State) : (writeResult v s).faultMark = s.faultMark := rfl
@[simp] theorem writeResult_abandonedAcks (v : Word) (s : State) : (writeResult v s).abandonedAcks = s.abandonedAcks := rfl
@[simp] theorem writeResult_freeCount (v : Word) (s : State) : (writeResult v s).freeCount = s.freeCount := rfl

/-! ### writeAlea -/

@[simp] theorem writeAlea_acc (a b c d : Word) (s : State) : (writeAlea a b c d s).acc = s.acc := rfl
@[simp] theorem writeAlea_s0 (a b c d : Word) (s : State) : (writeAlea a b c d s).s0 = a := rfl
@[simp] theorem writeAlea_s1 (a b c d : Word) (s : State) : (writeAlea a b c d s).s1 = b := rfl
@[simp] theorem writeAlea_s2 (a b c d : Word) (s : State) : (writeAlea a b c d s).s2 = c := rfl
@[simp] theorem writeAlea_x (a b c d : Word) (s : State) : (writeAlea a b c d s).x = d := rfl
@[simp] theorem writeAlea_data (a b c d : Word) (s : State) : (writeAlea a b c d s).data = s.data := rfl
@[simp] theorem writeAlea_result (a b c d : Word) (s : State) : (writeAlea a b c d s).result = s.result := rfl
@[simp] theorem writeAlea_phase (a b c d : Word) (s : State) : (writeAlea a b c d s).phase = s.phase := rfl
@[simp] theorem writeAlea_err (a b c d : Word) (s : State) : (writeAlea a b c d s).err = s.err := rfl
@[simp] theorem writeAlea_pending (a b c d : Word) (s : State) : (writeAlea a b c d s).pending = s.pending := rfl
@[simp] theorem writeAlea_reads (a b c d : Word) (s : State) : (writeAlea a b c d s).reads = s.reads := rfl
@[simp] theorem writeAlea_faultMark (a b c d : Word) (s : State) : (writeAlea a b c d s).faultMark = s.faultMark := rfl
@[simp] theorem writeAlea_abandonedAcks (a b c d : Word) (s : State) : (writeAlea a b c d s).abandonedAcks = s.abandonedAcks := rfl
@[simp] theorem writeAlea_freeCount (a b c d : Word) (s : State) : (writeAlea a b c d s).freeCount = s.freeCount := rfl

/-! ### writePhase -/

@[simp] theorem writePhase_acc (p : Phase) (s : State) : (writePhase p s).acc = s.acc := rfl
@[simp] theorem writePhase_s0 (p : Phase) (s : State) : (writePhase p s).s0 = s.s0 := rfl
@[simp] theorem writePhase_s1 (p : Phase) (s : State) : (writePhase p s).s1 = s.s1 := rfl
@[simp] theorem writePhase_s2 (p : Phase) (s : State) : (writePhase p s).s2 = s.s2 := rfl
@[simp] theorem writePhase_x (p : Phase) (s : State) : (writePhase p s).x = s.x := rfl
@[simp] theorem writePhase_data (p : Phase) (s : State) : (writePhase p s).data = s.data := rfl
@[simp] theorem writePhase_result (p : Phase) (s : State) : (writePhase p s).result = s.result := rfl
@[simp] theorem writePhase_phase (p : Phase) (s : State) : (writePhase p s).phase = p := rfl
@[simp] theorem writePhase_err (p : Phase) (s : State) : (writePhase p s).err = s.err := rfl
@[simp] theorem writePhase_pending (p : Phase) (s : State) : (writePhase p s).pending = s.pending := rfl
@[simp] theorem writePhase_reads (p : Phase) (s : State) : (writePhase p s).reads = s.reads := rfl
@[simp] theorem writePhase_faultMark (p : Phase) (s : State) : (writePhase p s).faultMark = s.faultMark := rfl
@[simp] theorem writePhase_abandonedAcks (p : Phase) (s : State) : (writePhase p s).abandonedAcks = s.abandonedAcks := rfl
@[simp] theorem writePhase_freeCount (p : Phase) (s : State) : (writePhase p s).freeCount = s.freeCount := rfl

/-! ### raiseError -/

@[simp] theorem raiseError_acc (c : ErrCode) (s : State) : (raiseError c s).acc = s.acc := rfl
@[simp] theorem raiseError_s0 (c : ErrCode) (s : State) : (raiseError c s).s0 = s.s0 := rfl
@[simp] theorem raiseError_s1 (c : ErrCode) (s : State) : (raiseError c s).s1 = s.s1 := rfl
@[simp] theorem raiseError_s2 (c : ErrCode) (s : State) : (raiseError c s).s2 = s.s2 := rfl
@[simp] theorem raiseError_x (c : ErrCode) (s : State) : (raiseError c s).x = s.x := rfl
@[simp] theorem raiseError_data (c : ErrCode) (s : State) : (raiseError c s).data = s.data := rfl
@[simp] theorem raiseError_result (c : ErrCode) (s : State) : (raiseError c s).result = s.result := rfl
@[simp] theorem raiseError_phase (c : ErrCode) (s : State) : (raiseError c s).phase = s.phase := rfl
@[simp] theorem raiseError_err (c : ErrCode) (s : State) : (raiseError c s).err = if s.err = none then some c else s.err := rfl
@[simp] theorem raiseError_pending (c : ErrCode) (s : State) : (raiseError c s).pending = s.pending := rfl
@[simp] theorem raiseError_reads (c : ErrCode) (s : State) : (raiseError c s).reads = s.reads := rfl
@[simp] theorem raiseError_faultMark (c : ErrCode) (s : State) : (raiseError c s).faultMark = true := rfl
@[simp] theorem raiseError_abandonedAcks (c : ErrCode) (s : State) : (raiseError c s).abandonedAcks = s.abandonedAcks := rfl
@[simp] theorem raiseError_freeCount (c : ErrCode) (s : State) : (raiseError c s).freeCount = s.freeCount := rfl

/-! ### clearError -/

@[simp] theorem clearError_acc (s : State) : (clearError s).acc = s.acc := rfl
@[simp] theorem clearError_s0 (s : State) : (clearError s).s0 = s.s0 := rfl
@[simp] theorem clearError_s1 (s : State) : (clearError s).s1 = s.s1 := rfl
@[simp] theorem clearError_s2 (s : State) : (clearError s).s2 = s.s2 := rfl
@[simp] theorem clearError_x (s : State) : (clearError s).x = s.x := rfl
@[simp] theorem clearError_data (s : State) : (clearError s).data = s.data := rfl
@[simp] theorem clearError_result (s : State) : (clearError s).result = s.result := rfl
@[simp] theorem clearError_phase (s : State) : (clearError s).phase = s.phase := rfl
@[simp] theorem clearError_err (s : State) : (clearError s).err = none := rfl
@[simp] theorem clearError_pending (s : State) : (clearError s).pending = s.pending := rfl
@[simp] theorem clearError_reads (s : State) : (clearError s).reads = s.reads := rfl
@[simp] theorem clearError_faultMark (s : State) : (clearError s).faultMark = s.faultMark := rfl
@[simp] theorem clearError_abandonedAcks (s : State) : (clearError s).abandonedAcks = s.abandonedAcks := rfl
@[simp] theorem clearError_freeCount (s : State) : (clearError s).freeCount = s.freeCount := rfl

/-! ### withPending -/

@[simp] theorem withPending_acc (q : List HostEvent) (s : State) : (withPending q s).acc = s.acc := rfl
@[simp] theorem withPending_s0 (q : List HostEvent) (s : State) : (withPending q s).s0 = s.s0 := rfl
@[simp] theorem withPending_s1 (q : List HostEvent) (s : State) : (withPending q s).s1 = s.s1 := rfl
@[simp] theorem withPending_s2 (q : List HostEvent) (s : State) : (withPending q s).s2 = s.s2 := rfl
@[simp] theorem withPending_x (q : List HostEvent) (s : State) : (withPending q s).x = s.x := rfl
@[simp] theorem withPending_data (q : List HostEvent) (s : State) : (withPending q s).data = s.data := rfl
@[simp] theorem withPending_result (q : List HostEvent) (s : State) : (withPending q s).result = s.result := rfl
@[simp] theorem withPending_phase (q : List HostEvent) (s : State) : (withPending q s).phase = s.phase := rfl
@[simp] theorem withPending_err (q : List HostEvent) (s : State) : (withPending q s).err = s.err := rfl
@[simp] theorem withPending_pending (q : List HostEvent) (s : State) : (withPending q s).pending = q := rfl
@[simp] theorem withPending_reads (q : List HostEvent) (s : State) : (withPending q s).reads = s.reads := rfl
@[simp] theorem withPending_faultMark (q : List HostEvent) (s : State) : (withPending q s).faultMark = s.faultMark := rfl
@[simp] theorem withPending_abandonedAcks (q : List HostEvent) (s : State) : (withPending q s).abandonedAcks = s.abandonedAcks := rfl
@[simp] theorem withPending_freeCount (q : List HostEvent) (s : State) : (withPending q s).freeCount = s.freeCount := rfl

/-! ### recordRead -/

@[simp] theorem recordRead_acc (v : Word) (s : State) : (recordRead v s).acc = s.acc := rfl
@[simp] theorem recordRead_s0 (v : Word) (s : State) : (recordRead v s).s0 = s.s0 := rfl
@[simp] theorem recordRead_s1 (v : Word) (s : State) : (recordRead v s).s1 = s.s1 := rfl
@[simp] theorem recordRead_s2 (v : Word) (s : State) : (recordRead v s).s2 = s.s2 := rfl
@[simp] theorem recordRead_x (v : Word) (s : State) : (recordRead v s).x = s.x := rfl
@[simp] theorem recordRead_data (v : Word) (s : State) : (recordRead v s).data = s.data := rfl
@[simp] theorem recordRead_result (v : Word) (s : State) : (recordRead v s).result = s.result := rfl
@[simp] theorem recordRead_phase (v : Word) (s : State) : (recordRead v s).phase = s.phase := rfl
@[simp] theorem recordRead_err (v : Word) (s : State) : (recordRead v s).err = s.err := rfl
@[simp] theorem recordRead_pending (v : Word) (s : State) : (recordRead v s).pending = s.pending := rfl
@[simp] theorem recordRead_reads (v : Word) (s : State) : (recordRead v s).reads = s.reads ++ [v] := rfl
@[simp] theorem recordRead_faultMark (v : Word) (s : State) : (recordRead v s).faultMark = s.faultMark := rfl
@[simp] theorem recordRead_abandonedAcks (v : Word) (s : State) : (recordRead v s).abandonedAcks = s.abandonedAcks := rfl
@[simp] theorem recordRead_freeCount (v : Word) (s : State) : (recordRead v s).freeCount = s.freeCount := rfl

/-! ### resetEngine -/

@[simp] theorem resetEngine_acc (s : State) : (resetEngine s).acc = Engine.reset.acc := rfl
@[simp] theorem resetEngine_s0 (s : State) : (resetEngine s).s0 = Engine.reset.s0 := rfl
@[simp] theorem resetEngine_s1 (s : State) : (resetEngine s).s1 = Engine.reset.s1 := rfl
@[simp] theorem resetEngine_s2 (s : State) : (resetEngine s).s2 = Engine.reset.s2 := rfl
@[simp] theorem resetEngine_x (s : State) : (resetEngine s).x = Engine.reset.x := rfl
@[simp] theorem resetEngine_data (s : State) : (resetEngine s).data = Engine.reset.data := rfl
@[simp] theorem resetEngine_result (s : State) : (resetEngine s).result = Engine.reset.result := rfl
@[simp] theorem resetEngine_phase (s : State) : (resetEngine s).phase = Engine.reset.phase := rfl
@[simp] theorem resetEngine_err (s : State) : (resetEngine s).err = Engine.reset.err := rfl
@[simp] theorem resetEngine_pending (s : State) : (resetEngine s).pending = s.pending := rfl
@[simp] theorem resetEngine_reads (s : State) : (resetEngine s).reads = s.reads := rfl
@[simp] theorem resetEngine_faultMark (s : State) : (resetEngine s).faultMark = s.faultMark := rfl
@[simp] theorem resetEngine_abandonedAcks (s : State) : (resetEngine s).abandonedAcks = s.abandonedAcks := rfl
@[simp] theorem resetEngine_freeCount (s : State) : (resetEngine s).freeCount = s.freeCount := rfl

/-! ### recordAbandoned -/

@[simp] theorem recordAbandoned_acc (s : State) : (recordAbandoned s).acc = s.acc := rfl
@[simp] theorem recordAbandoned_s0 (s : State) : (recordAbandoned s).s0 = s.s0 := rfl
@[simp] theorem recordAbandoned_s1 (s : State) : (recordAbandoned s).s1 = s.s1 := rfl
@[simp] theorem recordAbandoned_s2 (s : State) : (recordAbandoned s).s2 = s.s2 := rfl
@[simp] theorem recordAbandoned_x (s : State) : (recordAbandoned s).x = s.x := rfl
@[simp] theorem recordAbandoned_data (s : State) : (recordAbandoned s).data = s.data := rfl
@[simp] theorem recordAbandoned_result (s : State) : (recordAbandoned s).result = s.result := rfl
@[simp] theorem recordAbandoned_phase (s : State) : (recordAbandoned s).phase = s.phase := rfl
@[simp] theorem recordAbandoned_err (s : State) : (recordAbandoned s).err = s.err := rfl
@[simp] theorem recordAbandoned_pending (s : State) : (recordAbandoned s).pending = s.pending := rfl
@[simp] theorem recordAbandoned_reads (s : State) : (recordAbandoned s).reads = s.reads := rfl
@[simp] theorem recordAbandoned_faultMark (s : State) : (recordAbandoned s).faultMark = s.faultMark := rfl
@[simp] theorem recordAbandoned_abandonedAcks (s : State) : (recordAbandoned s).abandonedAcks = s.abandonedAcks ++ [Config.abandonedCompletes s.freeCount] := rfl
@[simp] theorem recordAbandoned_freeCount (s : State) : (recordAbandoned s).freeCount = s.freeCount + 1 := rfl

/-! ### writeWord: the word it names, and nothing else -/

@[simp] theorem writeWord_0 (v : Word) (s : State) : writeWord 0 v s = writeAlea v s.s1 s.s2 s.x s := rfl
@[simp] theorem writeWord_1 (v : Word) (s : State) : writeWord 1 v s = writeAlea s.s0 v s.s2 s.x s := rfl
@[simp] theorem writeWord_2 (v : Word) (s : State) : writeWord 2 v s = writeAlea s.s0 s.s1 v s.x s := rfl
@[simp] theorem writeWord_acc (k : Fin 3) (v : Word) (s : State) : (writeWord k v s).acc = s.acc := by
  fin_cases k <;> rfl
@[simp] theorem writeWord_x (k : Fin 3) (v : Word) (s : State) : (writeWord k v s).x = s.x := by
  fin_cases k <;> rfl
@[simp] theorem writeWord_data (k : Fin 3) (v : Word) (s : State) : (writeWord k v s).data = s.data := by
  fin_cases k <;> rfl
@[simp] theorem writeWord_result (k : Fin 3) (v : Word) (s : State) : (writeWord k v s).result = s.result := by
  fin_cases k <;> rfl
@[simp] theorem writeWord_phase (k : Fin 3) (v : Word) (s : State) : (writeWord k v s).phase = s.phase := by
  fin_cases k <;> rfl
@[simp] theorem writeWord_err (k : Fin 3) (v : Word) (s : State) : (writeWord k v s).err = s.err := by
  fin_cases k <;> rfl
@[simp] theorem writeWord_pending (k : Fin 3) (v : Word) (s : State) : (writeWord k v s).pending = s.pending := by
  fin_cases k <;> rfl
@[simp] theorem writeWord_reads (k : Fin 3) (v : Word) (s : State) : (writeWord k v s).reads = s.reads := by
  fin_cases k <;> rfl
@[simp] theorem writeWord_faultMark (k : Fin 3) (v : Word) (s : State) : (writeWord k v s).faultMark = s.faultMark := by
  fin_cases k <;> rfl
@[simp] theorem writeWord_abandonedAcks (k : Fin 3) (v : Word) (s : State) : (writeWord k v s).abandonedAcks = s.abandonedAcks := by
  fin_cases k <;> rfl
@[simp] theorem writeWord_freeCount (k : Fin 3) (v : Word) (s : State) : (writeWord k v s).freeCount = s.freeCount := by
  fin_cases k <;> rfl

end Sys2Proof.Machine
end

