-- ==== Sys2Proof/Laws/Step.lean ====
section
/-!
SUPPORT. What each shared operation can do, said once: `require`, the commands, the service of an event and the step.
-/

namespace Sys2Proof.Machine

/-! ### Byte order -/

theorem wordOfBytes_bytesOfWord (v : Word) : wordOfBytes (bytesOfWord v) = v := by
  apply BitVec.eq_of_toNat_eq
  have h : bytesOfWord v = [v.extractLsb' 0 8, v.extractLsb' 8 8, v.extractLsb' 16 8, v.extractLsb' 24 8,
    v.extractLsb' 32 8, v.extractLsb' 40 8, v.extractLsb' 48 8, v.extractLsb' 56 8] := rfl
  have := v.isLt
  rw [h]
  simp [wordOfBytes, natOfBytes, BitVec.extractLsb'_toNat, Nat.shiftRight_eq_div_pow]
  omega

@[simp] theorem length_bytesOfWord (v : Word) : (bytesOfWord v).length = 8 := rfl

/-! ### Errors -/

theorem require_cases {ok : Bool} {c : ErrCode} {done s t : State} (h : require ok c done s = .next t) :
    (ok = true ∧ t = done) ∨ (ok = false ∧ t = raiseError c s) := by
  unfold require at h
  cases ok
  · exact .inr ⟨rfl, by simpa using h.symm⟩
  · exact .inl ⟨rfl, by simpa using h.symm⟩

theorem require_true (c : ErrCode) (done s : State) : require true c done s = .next done := rfl

theorem require_false (c : ErrCode) (done s : State) : require false c done s = .next (raiseError c s) := rfl

/-! ### Commands -/

/-- Everything a command can do: its effect, or the one error its rule names. -/
theorem exec_cases {i : Instr} {s t : State} (h : exec i s = .next t) :
    (i = .mashInit ∧ t = writeAcc accInit s) ∨
    (∃ cu, i = .mashStep cu ∧ t = writeAcc (mashStep s.acc cu) s) ∨
    (i = .mashOut ∧ t = writeResult (mashOut s.acc) s) ∨
    (i = .trunc32 ∧ F64.isFinite s.data = true ∧ t = writeResult (int32Emu s.data) s) ∨
    (i = .trunc32 ∧ F64.isFinite s.data = false ∧ t = raiseError .domain s) ∨
    (i = .seedBegin ∧ ∃ a0 a1 a2 a, t = writePhase (.seeding 0) (writeAlea a0 a1 a2 oneF64 (writeAcc a s)) ∧
      a = mashStep (mashStep (mashStep accInit spaceUnit) spaceUnit) spaceUnit ∧
      a0 = mashOut (mashStep accInit spaceUnit) ∧ a1 = mashOut (mashStep (mashStep accInit spaceUnit) spaceUnit) ∧
      a2 = mashOut a) ∨
    (i = .seedFold ∧ ∃ k, s.phase = .seeding k ∧
      t = writePhase (phaseAfterFold k) (writeWord k (foldWord (readWord k s.toEngine) (mashOut s.acc)) s)) ∨
    (i = .seedFold ∧ (∀ k, s.phase ≠ .seeding k) ∧ t = raiseError .sequence s) ∨
    (i = .random ∧ s.phase = .ready ∧ t = writeResult (aleaStep s).s2 (aleaStep s)) ∨
    (i = .random ∧ s.phase ≠ .ready ∧ t = raiseError .notReady s) ∨
    (i = .uint32 ∧ s.phase = .ready ∧ t = writeResult (zextResult (uint32Of (aleaStep s).s2)) (aleaStep s)) ∨
    (i = .uint32 ∧ s.phase ≠ .ready ∧ t = raiseError .notReady s) ∨
    (i = .clrErr ∧ t = clearError s) := by
  cases i with
  | mashInit => simp_all [exec, execMashInit]
  | mashStep cu => simp_all [exec, execMashStep]
  | mashOut => simp_all [exec, execMashOut]
  | trunc32 => rcases require_cases h with ⟨h1, h2⟩ | ⟨h1, h2⟩ <;> simp [h1, h2]
  | seedBegin => simp_all [exec, execSeedBegin]
  | seedFold =>
    simp only [exec, execSeedFold] at h
    split at h <;> rename_i hp <;> simp_all
  | random => rcases require_cases h with ⟨h1, h2⟩ | ⟨h1, h2⟩ <;> simp_all
  | uint32 => rcases require_cases h with ⟨h1, h2⟩ | ⟨h1, h2⟩ <;> simp_all
  | clrErr => simp_all [exec, execClrErr]

/-! ### The window -/

/-- The offset of a register leads to it. -/
@[simp] theorem accessReg_offsetOf (r : WindowReg) : accessReg (offsetOf r) 8 = .ok r := by cases r <;> rfl

/-- An access is served only at the offset of a register, eight bytes wide. -/
theorem accessReg_ok {off width : Nat} {r : WindowReg} (h : accessReg off width = .ok r) :
    width = 8 ∧ off = offsetOf r := by
  unfold accessReg at h
  split at h
  · cases h
  · split at h
    · cases h
    · rename_i hw _
      refine ⟨by simpa using hw, ?_⟩
      unfold regAt at h
      split at h
      · rename_i r' hr
        obtain rfl : r' = r := by simpa using h
        split at hr <;> first | (obtain rfl := Option.some.inj hr; rfl) | cases hr
      · cases h

/-- Which accesses reach a register. -/
theorem accessReg_served (off width : Nat) :
    (∃ r, accessReg off width = .ok r) ↔ width = 8 ∧ off % 8 = 0 ∧ off < 0x48 := by
  constructor
  · rintro ⟨r, hr⟩
    obtain ⟨rfl, rfl⟩ := accessReg_ok hr
    cases r <;> decide
  · rintro ⟨rfl, h1, h2⟩
    obtain rfl | rfl | rfl | rfl | rfl | rfl | rfl | rfl | rfl : off = 0x00 ∨ off = 0x08 ∨ off = 0x10 ∨ off = 0x18 ∨
        off = 0x20 ∨ off = 0x28 ∨ off = 0x30 ∨ off = 0x38 ∨ off = 0x40 := by omega
    all_goals exact ⟨_, rfl⟩

theorem executeCmd_ok {v : Word} {i : Instr} (h : decodeCmd v = .ok i) (s : State) : executeCmd v s = exec i s := by
  simp [executeCmd, h]

theorem executeCmd_error {v : Word} {c : IllegalCause} (h : decodeCmd v = .error c) (s : State) :
    executeCmd v s = .next (raiseError .illegalCmd s) := by
  simp [executeCmd, h]

theorem serveWrite_cmd {bytes : List Byte} (h : bytes.length = 8) (s : State) :
    serveWrite 0x00 bytes s = executeCmd (wordOfBytes bytes) s := by
  simp [serveWrite, h, show accessReg 0 8 = .ok .cmd from rfl]

theorem serveWrite_data {bytes : List Byte} (h : bytes.length = 8) (s : State) :
    serveWrite 0x08 bytes s = .next (writeData (wordOfBytes bytes) s) := by
  simp [serveWrite, h, show accessReg 8 8 = .ok .data from rfl]

/-- A CMD write of an encoded value, as host programs make it. -/
theorem serve_cmdWrite (v : Word) (s : State) : serve (cmdWrite v) s = executeCmd v s := by
  simp only [serve, cmdWrite, serveWrite_cmd (length_bytesOfWord v), wordOfBytes_bytesOfWord]

theorem serve_dataWrite (v : Word) (s : State) : serve (dataWrite v) s = .next (writeData v s) := by
  simp only [serve, dataWrite, serveWrite_data (length_bytesOfWord v), wordOfBytes_bytesOfWord]

/-- Everything the service of an event can do, if it answers a next state. -/
theorem serve_cases {ev : HostEvent} {s t : State} (h : serve ev s = .next t) :
    (∃ r, ev = .read (offsetOf r) 8 ∧ t = recordRead (readReg r s.toEngine) s) ∨
    (∃ bytes, ev = .write 0x08 bytes ∧ bytes.length = 8 ∧ t = writeData (wordOfBytes bytes) s) ∨
    (∃ bytes i, ev = .write 0x00 bytes ∧ bytes.length = 8 ∧ decodeCmd (wordOfBytes bytes) = .ok i ∧
      exec i s = .next t) ∨
    (∃ bytes c, ev = .write 0x00 bytes ∧ bytes.length = 8 ∧ decodeCmd (wordOfBytes bytes) = .error c ∧
      t = raiseError .illegalCmd s) ∨
    (ev = .reset ∧ t = resetEngine s) ∨
    (∃ v, ev = .resetDuringCmd v ∧ t = recordAbandoned (resetEngine s)) := by
  cases ev with
  | read off width =>
    simp only [serve, serveRead] at h
    split at h
    · rename_i r hr
      obtain ⟨rfl, rfl⟩ := accessReg_ok hr
      exact .inl ⟨r, rfl, by simpa using h.symm⟩
    · cases h
  | write off bytes =>
    simp only [serve, serveWrite] at h
    split at h
    · rename_i hr
      obtain ⟨hl, rfl⟩ := accessReg_ok hr
      cases hd : decodeCmd (wordOfBytes bytes) with
      | ok i => exact .inr (.inr (.inl ⟨bytes, i, rfl, hl, hd, by rwa [executeCmd_ok hd] at h⟩))
      | error c =>
        rw [executeCmd_error hd] at h
        exact .inr (.inr (.inr (.inl ⟨bytes, c, rfl, hl, hd, by simpa using h.symm⟩)))
    · rename_i hr
      obtain ⟨hl, rfl⟩ := accessReg_ok hr
      exact .inr (.inl ⟨bytes, rfl, hl, by simpa using h.symm⟩)
    · cases h
    · cases h
  | reset => simp_all [serve]
  | resetDuringCmd v => simp_all [serve]

/-- Everything a step can do, if it answers a next state: with no event waiting, nothing; else the service of the next
event. -/
theorem step_cases {s t : State} (h : step s = .next t) :
    (s.pending = [] ∧ t = s) ∨ ∃ ev rest, s.pending = ev :: rest ∧ serve ev (withPending rest s) = .next t := by
  unfold step serveNext at h
  split at h
  · exact .inl ⟨‹_›, by simpa using h.symm⟩
  · exact .inr ⟨_, _, ‹_›, h⟩

theorem step_cons {s : State} {ev : HostEvent} {rest : List HostEvent} (h : s.pending = ev :: rest) :
    step s = serve ev (withPending rest s) := by
  simp [step, serveNext, h]

/-! ### Runs -/

theorem runEvents_cons {ev : HostEvent} {s t : State} (h : serve ev s = .next t) (evs : List HostEvent) :
    runEvents (ev :: evs) s = runEvents evs t := by
  simp [runEvents, h]

theorem runEvents_append {evs : List HostEvent} {s t : State} (h : runEvents evs s = .completed t)
    (evs' : List HostEvent) : runEvents (evs ++ evs') s = runEvents evs' t := by
  induction evs generalizing s with
  | nil => obtain rfl : s = t := by simpa [runEvents] using h
           rfl
  | cons ev evs ih =>
    simp only [runEvents, List.cons_append] at h ⊢
    split at h
    · exact ih h
    · cases h
    · cases h

end Sys2Proof.Machine
end

