-- ==== Sys2Proof/Tests/Slice0.lean ====
section
/-!
SUPPORT. Tests of the model, each of one decoding or one step, with expected values from the tables of
95_test_vectors.md or the rule named; and for every statement with hypotheses, a witness that meets them.
-/

namespace Sys2Proof.Tests

open Sys2Proof.Machine

/-! ### Helpers -/

/-- The reset state with one event waiting. -/
def waiting (ev : HostEvent) : State := { State.reset with pending := [ev] }

/-- The reset state in another phase. -/
def inPhase (p : Phase) : State := { State.reset with phase := p }

/-- A field of the next state of a command. -/
def after {α : Type} (f : State → α) (i : Instr) (s : State) : Option α := (nextState? (exec i s)).map f

/-- A field of the next state of a step. -/
def stepped {α : Type} (f : State → α) (s : State) : Option α := (nextState? (step s)).map f

/-- READY as `SEED "frank"` leaves it (95_test_vectors.md section 5.2). -/
def frankReady : State :=
  { State.reset with
    acc := 0x41B4032807000000, s0 := 0x3FCCD419D8800000, s1 := 0x3FE3562D2CC00000, s2 := 0x3FEADD5D87800000,
    x := 0x3FF0000000000000, phase := .ready }

/-! ### Well-formedness: an ill-formed term for each check -/

theorem test_legal_random : legalCmd 0x0000000020000000 = true := by decide

theorem test_illegal_hi : legalCmd 0x0000000120000000 = false := by decide

theorem test_illegal_rsv : legalCmd 0x0000000002010020 = false := by decide

theorem test_illegal_opc : legalCmd 0x0000000004000000 = false := by decide

theorem test_illegal_imm : legalCmd 0x0000000020000001 = false := by decide

theorem test_admitted : admittedAccess 0x40 8 = true := by decide

theorem test_refused_width : admittedAccess 0x40 4 = false := by decide

theorem test_refused_alignment : admittedAccess 0x44 8 = false := by decide

/-- No term of `Instr` is ill formed: MASH_STEP takes every 16-bit value (30_encoding.md R67). -/
theorem test_wellFormed_largest_immediate : (Instr.mashStep 0xFFFF).wellFormed = true := by decide

/-! ### Decoding: words written out bit by bit from 30_encoding.md R68 -/

theorem test_decode_mash_init : decodeCmd (0#32 ++ 0b00000001#8 ++ 0b00000000#8 ++ 0b0000000000000000#16) = .ok .mashInit :=
  rfl

theorem test_decode_mash_step :
    decodeCmd (0#32 ++ 0b00000010#8 ++ 0b00000000#8 ++ 0b0000000001100110#16) = .ok (.mashStep 0x0066) := rfl

theorem test_decode_mash_step_all_ones : decodeCmd 0x000000000200FFFF = .ok (.mashStep 0xFFFF) := rfl

theorem test_decode_mash_out : decodeCmd (0#32 ++ 0b00000011#8 ++ 0b00000000#8 ++ 0b0000000000000000#16) = .ok .mashOut :=
  rfl

theorem test_decode_trunc32 : decodeCmd (0#32 ++ 0b00001000#8 ++ 0b00000000#8 ++ 0b0000000000000000#16) = .ok .trunc32 :=
  rfl

theorem test_decode_seed_begin :
    decodeCmd (0#32 ++ 0b00010000#8 ++ 0b00000000#8 ++ 0b0000000000000000#16) = .ok .seedBegin := rfl

theorem test_decode_seed_fold :
    decodeCmd (0#32 ++ 0b00010001#8 ++ 0b00000000#8 ++ 0b0000000000000000#16) = .ok .seedFold := rfl

theorem test_decode_random : decodeCmd (0#32 ++ 0b00100000#8 ++ 0b00000000#8 ++ 0b0000000000000000#16) = .ok .random :=
  rfl

theorem test_decode_uint32 : decodeCmd (0#32 ++ 0b00100001#8 ++ 0b00000000#8 ++ 0b0000000000000000#16) = .ok .uint32 :=
  rfl

theorem test_decode_clrerr : decodeCmd (0#32 ++ 0b00111111#8 ++ 0b00000000#8 ++ 0b0000000000000000#16) = .ok .clrErr :=
  rfl

/-- 95_test_vectors.md section 6, the illegal rows. -/
theorem test_decode_illegal :
    decodeCmd 0x0000000000000000 = .error .opcUnassigned ∧ decodeCmd 0x0000000004000000 = .error .opcUnassigned ∧
    decodeCmd 0x00000000FF000000 = .error .opcUnassigned ∧ decodeCmd 0x0000000002010020 = .error .rsvNotZero ∧
    decodeCmd 0x0000000020000001 = .error .immNotZero ∧ decodeCmd 0x0000000120000000 = .error .hiNotZero ∧
    decodeCmd 0x8000000003000000 = .error .hiNotZero := ⟨rfl, rfl, rfl, rfl, rfl, rfl, rfl⟩

theorem test_encode_mash_step : encode (.mashStep 0x0066) = 0x0000000002000066 := by decide

/-- 20_memory.md R48: the byte at the highest offset holds bits 63:56. -/
theorem test_byte_order :
    bytesOfWord 0x0123456789ABCDEF = [0xEF, 0xCD, 0xAB, 0x89, 0x67, 0x45, 0x23, 0x01] := by decide

theorem test_decode_table_word : decodeTableWord 64 0x02000066 = some (.mashStep 0x0066) := by decide

/-- A table word runs as the first command after reset. -/
theorem test_fetch_word :
    stepped (fun s => s.err) (State.reset.withFetchWord 64 0x20000000) = some (some .notReady) := by decide

/-! ### Arithmetic (00_scope.md R10) -/

/-- 1 + 2^-53 is a tie and goes to the even 1; 1 + 3 * 2^-53 is a tie and goes to the even 1 + 2^-51. -/
theorem test_fadd_ties :
    F64.fadd 0x3FF0000000000000 0x3CA0000000000000 = 0x3FF0000000000000 ∧
    F64.fadd 0x3FF0000000000001 0x3CA0000000000000 = 0x3FF0000000000002 := by decide +kernel

/-- Half the least subnormal is a tie and goes to zero; three halves of it go to twice it. -/
theorem test_fmul_subnormal :
    F64.fmul 0x0000000000000001 0x3FE0000000000000 = 0x0000000000000000 ∧
    F64.fmul 0x0000000000000003 0x3FE0000000000000 = 0x0000000000000002 := by decide +kernel

/-! ### Commands -/

/-- 95_test_vectors.md section 3.3. -/
theorem test_mash_init :
    after (fun s => s.acc) .mashInit { State.reset with acc := 0x41A6B59E20000000 } = some 0x41EDF90493A00000 := by decide

/-- 95_test_vectors.md section 3.1. -/
theorem test_mash_step :
    after (fun s => s.acc) (.mashStep 0x0020) State.reset = some 0x41EBA063FA400000 := by decide +kernel

/-- 95_test_vectors.md section 3.3: the largest code unit. -/
theorem test_mash_step_largest :
    after (fun s => s.acc) (.mashStep 0xFFFF) State.reset = some 0x41D7850478000000 := by decide +kernel

/-- 95_test_vectors.md section 3.3: an accumulator in [2^31, 2^32) gives a negative value. -/
theorem test_mash_out_negative :
    after (fun s => s.result) .mashOut State.reset = some 0xBFB037DB63000000 := by decide +kernel

/-- 95_test_vectors.md section 3.3: an accumulator of at least 2^32 wraps to a positive value. -/
theorem test_mash_out_wraps :
    after (fun s => s.result) .mashOut { State.reset with acc := 0x41F023EEA2200000 } = some 0x3F81F75110000000 := by
  decide +kernel

/-- 95_test_vectors.md section 1.2. -/
theorem test_trunc32_wraps :
    after (fun s => s.result) .trunc32 { State.reset with data := 0x41E00000001CCCCD } = some 0xC1E0000000000000 := by
  decide +kernel

/-- 95_test_vectors.md, program P1: a quiet NaN raises DOMAIN and leaves RESULT. -/
theorem test_trunc32_domain :
    after (fun s => (s.result, s.err, s.faultMark)) .trunc32
      { State.reset with data := 0x7FF8000000000000, result := 0xC1E0000000000000 } =
      some (0xC1E0000000000000, some .domain, true) := by decide

/-- 95_test_vectors.md section 5.1. -/
theorem test_seed_begin :
    after (fun s => (s.acc, s.s0, s.s1, s.s2, s.x)) .seedBegin frankReady =
      some (0x41ED5DC288600000, 0xBFC17E7017000000, 0x3FC3399F2E800000, 0xBFB511EBBD000000, 0x3FF0000000000000) := by
  decide +kernel

/-- 95_test_vectors.md section 5.2, the first fold of "frank". -/
theorem test_seed_fold_first :
    after (fun s => (s.s0, statusWord s.toEngine)) .seedFold
      { inPhase (.seeding 0) with acc := 0x41E46B5D84200000, s0 := 0xBFC17E7017000000 } =
      some (0x3FCCD419D8800000, 0x0000000000000005) := by decide +kernel

/-- 95_test_vectors.md section 5.2, the third fold of "frank": 1.0 is added. -/
theorem test_seed_fold_third :
    after (fun s => (s.s2, statusWord s.toEngine)) .seedFold
      { inPhase (.seeding 2) with acc := 0x41B4032807000000, s2 := 0xBFB511EBBD000000 } =
      some (0x3FEADD5D87800000, 0x000000000000000E) := by decide +kernel

/-- 95_test_vectors.md sections 1.4 and 5.2. -/
theorem test_random :
    after (fun s => (s.s0, s.s1, s.s2, s.x, s.result)) .random frankReady =
      some (0x3FE3562D2CC00000, 0x3FEADD5D87800000, 0x3FE9DBDA29000000, 0x411CC0B000000000, 0x3FE9DBDA29000000) := by
  decide +kernel

/-- 95_test_vectors.md section 5.3. -/
theorem test_random_not_ready :
    after (fun s => statusWord s.toEngine) .random (inPhase (.seeding 0)) = some 0x0000000000000201 := by decide

/-- 95_test_vectors.md section 1.4. -/
theorem test_uint32 : after (fun s => s.result) .uint32 frankReady = some 0x00000000CEDED148 := by decide +kernel

/-- 43_system.md R120, example. -/
theorem test_clrerr :
    after (fun s => statusWord s.toEngine) .clrErr { State.reset with err := some .notReady } = some 0 := by decide

/-! ### The window (20_memory.md) -/

/-- 95_test_vectors.md, program P4: an illegal word after NOT_READY leaves ERR at 2. -/
theorem test_illegal_command_sticks :
    stepped (fun s => statusWord s.toEngine) { waiting (cmdWrite 0x0000000001000001) with err := some .notReady } =
      some 0x0000000000000200 := by decide

theorem test_read_status :
    stepped (fun s => s.reads) { waiting (.read 0x18 8) with phase := .ready, err := some .sequence } =
      some [0x000000000000030E] := by decide

theorem test_write_result_refused : step (waiting (.write 0x10 (bytesOfWord 0))) = .fault (.busError .readOnly) := rfl

theorem test_read_reserved_refused : step (waiting (.read 0x48 8)) = .fault (.busError .reserved) := rfl

theorem test_read_narrow_refused : step (waiting (.read 0x18 4)) = .fault (.busError .width) := rfl

/-! ### Witnesses: for every statement with hypotheses, a state and operands that meet them -/

theorem witness_DecodeEncodeRoundTrip :
    (Instr.mashStep 0xFFFF).wellFormed = true ∧ decodeCmd 0x000000000200FFFF = .ok (.mashStep 0xFFFF) := ⟨rfl, rfl⟩

theorem witness_StepRunsTheDecodedCommand : ∃ (s : State) (bytes : List Byte) (rest : List HostEvent) (i : Instr),
    s.pending = .write 0x00 bytes :: rest ∧ bytes.length = 8 ∧ decodeCmd (wordOfBytes bytes) = .ok i ∧
      i.wellFormed = true :=
  ⟨waiting (.write 0x00 [0x66, 0, 0, 2, 0, 0, 0, 0]), _, [], .mashStep 0x66, rfl, rfl, rfl, rfl⟩

/-- One for each clause: HI, RSV, OPC, IMM16. -/
theorem witness_IllegalCommandRecordsOnlyTheError :
    (∃ (s : State) (bytes : List Byte), s.pending = [.write 0x00 bytes] ∧ bytes.length = 8 ∧
      (wordOfBytes bytes).extractLsb 63 32 ≠ 0) ∧
    (∃ (s : State) (bytes : List Byte), s.pending = [.write 0x00 bytes] ∧ bytes.length = 8 ∧
      (wordOfBytes bytes).extractLsb 23 16 ≠ 0) ∧
    (∃ (s : State) (bytes : List Byte), s.pending = [.write 0x00 bytes] ∧ bytes.length = 8 ∧
      (wordOfBytes bytes).extractLsb 31 24 ∉
        ([0x01, 0x02, 0x03, 0x08, 0x10, 0x11, 0x20, 0x21, 0x3F] : List (BitVec 8))) ∧
    (∃ (s : State) (bytes : List Byte), s.pending = [.write 0x00 bytes] ∧ bytes.length = 8 ∧
      (wordOfBytes bytes).extractLsb 31 24 ≠ 0x02 ∧ (wordOfBytes bytes).extractLsb 15 0 ≠ 0) :=
  ⟨⟨waiting (.write 0x00 [0, 0, 0, 1, 1, 0, 0, 0]), _, rfl, rfl, by decide⟩,
    ⟨waiting (.write 0x00 [0, 0, 1, 2, 0, 0, 0, 0]), _, rfl, rfl, by decide⟩,
    ⟨waiting (.write 0x00 [0, 0, 0, 0, 0, 0, 0, 0]), _, rfl, rfl, by decide⟩,
    ⟨waiting (.write 0x00 [1, 0, 0, 1, 0, 0, 0, 0]), _, rfl, rfl, by decide⟩⟩

theorem witness_ReadReturnsTheMappedRegister :
    ∀ off ∈ [0x00, 0x08, 0x10, 0x18, 0x20, 0x28, 0x30, 0x38, 0x40], ∃ s : State, s.pending = [.read off 8] :=
  fun off _ => ⟨waiting (.read off 8), rfl⟩

theorem witness_DataWriteIsLittleEndian : ∃ (s : State) (v : Word),
    s.pending = [.write 0x08 [v.extractLsb 7 0, v.extractLsb 15 8, v.extractLsb 23 16, v.extractLsb 31 24,
      v.extractLsb 39 32, v.extractLsb 47 40, v.extractLsb 55 48, v.extractLsb 63 56]] :=
  ⟨waiting (.write 0x08 [0xEF, 0xCD, 0xAB, 0x89, 0x67, 0x45, 0x23, 0x01]), 0x0123456789ABCDEF, by decide⟩

/-- Both sides of DATA: the last byte of CMD and the first byte of RESULT. -/
theorem witness_DataWriteChangesItsBytesOnly : ∃ (s : State) (bytes : List Byte),
    s.pending = [.write 0x08 bytes] ∧ bytes.length = 8 ∧ 7 < 8 ∧ 0x07 < 0x08 ∧ 0x10 ≤ 0x10 :=
  ⟨waiting (.write 0x08 [1, 2, 3, 4, 5, 6, 7, 8]), _, rfl, rfl, by decide, by decide, by decide⟩

theorem witness_EngineWaitsForAccesses : State.reset.pending = [] := rfl

/-- Reads and writes at CMD, at the last offset with a register, in the reserved part and just outside the window. -/
theorem witness_BusErrorConditions : ∀ off ∈ [0x00, 0x40, 0x48, 0x7F, 0x80],
    (∃ s : State, s.pending = [.read off 8]) ∧ ∃ s : State, s.pending = [.write off (bytesOfWord 0)] :=
  fun off _ => ⟨⟨waiting (.read off 8), rfl⟩, ⟨waiting (.write off (bytesOfWord 0)), rfl⟩⟩

theorem witness_ReadsShowTheWholeEngine : ∃ e e' : Engine, ∀ r : WindowReg, readReg r e = readReg r e' :=
  ⟨Engine.reset, Engine.reset, fun _ => rfl⟩

theorem witness_ResetEventGivesResetRegisters :
    (∃ s : State, s.pending = [.reset]) ∧ ∃ s : State, s.pending = [.resetDuringCmd 0x02000066] :=
  ⟨⟨waiting .reset, rfl⟩, ⟨waiting (.resetDuringCmd 0x02000066), rfl⟩⟩

theorem witness_FailingCommandsWriteOnlyErr :
    (inPhase (.seeding 2)).phase ≠ .ready ∧ (∀ k, frankReady.phase ≠ .seeding k) ∧
    (∃ s : State, s.data = 0x7FF0000000000000 ∧ s.data.extractLsb 62 52 = 0x7FF) :=
  ⟨by decide, by decide, { State.reset with data := 0x7FF0000000000000 }, rfl, by decide⟩

theorem witness_CompletingCommandsRaiseNothing :
    frankReady.phase = .ready ∧ (∃ k, (inPhase (.seeding 2)).phase = .seeding k) ∧
    (∃ s : State, s.data = 0x7FEFFFFFFFFFFFFF ∧ s.data.extractLsb 62 52 ≠ 0x7FF) :=
  ⟨rfl, ⟨2, rfl⟩, { State.reset with data := 0x7FEFFFFFFFFFFFFF }, rfl, by decide⟩

/-- CLRERR, a reset and a reset during a command each lower ERR. -/
theorem witness_OnlyClrErrAndResetLowerErr :
    ∀ ev ∈ [issue .clrErr, .reset, .resetDuringCmd 0], ∃ s t : State, s.pending = [ev] ∧ step s = .next t ∧
      s.err = some .domain ∧ t.err ≠ some .domain := by
  intro ev h
  simp only [List.mem_cons, List.not_mem_nil, or_false] at h
  rcases h with rfl | rfl | rfl <;>
    exact ⟨{ waiting _ with err := some .domain }, _, rfl, rfl, rfl, by decide⟩

theorem witness_FaultMarkSticks : ∃ s t : State,
    step s = .next t ∧ s.faultMark = true ∧ MarkInv s ∧ s.err = some .domain :=
  ⟨{ waiting (.read 0 8) with err := some .domain, faultMark := true }, _, rfl, rfl, fun _ => rfl, rfl⟩

theorem witness_AccessMatrixWrites : ∃ (i : Instr) (s t : State), exec i s = .next t ∧ i = .seedFold ∧
    (∀ j : Fin 3, j ≠ 1 → s.phase ≠ .seeding j) :=
  ⟨.seedFold, inPhase (.seeding 1), _, rfl, rfl, by decide⟩

theorem accInv_ofInt {k : Nat} (h : k ≤ 2 ^ 32 + 2 ^ 31) : AccInv (F64.ofInt k) := by
  obtain ⟨h1, h2⟩ := F64.nonNeg_ofInt (k := k) (by omega)
  exact (accInv_iff _).2 ⟨h1, h2 ▸ Nat.mul_le_mul_right _ h⟩

theorem accInv_accInit : AccInv accInit := by
  rw [accInit_eq]
  exact accInv_ofInt (k := 4022871197) (by decide)

/-- Both ends of the range, and the reset value. -/
theorem witness_MashStepStaysInRange :
    AccInv (F64.ofInt 0) ∧ AccInv (F64.ofInt (2 ^ 32 + 2 ^ 31)) ∧ AccInv State.reset.acc :=
  ⟨accInv_ofInt (k := 0) (by decide), accInv_ofInt (k := 2 ^ 32 + 2 ^ 31) (by decide),
    accInv_accInit⟩

theorem witness_MashOutReturnsTheScaledLow32Bits :
    F64.isFinite State.reset.acc = true ∧ ∃ s : State, s.acc = 0x41F8000000000000 ∧ F64.isFinite s.acc = true :=
  ⟨by decide, { State.reset with acc := 0x41F8000000000000 }, rfl, by decide⟩

theorem witness_Trunc32ReturnsTheSignedLow32Bits : ∃ s : State,
    s.data = 0xFFEFFFFFFFFFFFFF ∧ F64.isFinite s.data = true :=
  ⟨{ State.reset with data := 0xFFEFFFFFFFFFFFFF }, rfl, by decide⟩

/-- Each of the three words, at the ends of the range. -/
theorem witness_SeedFoldSubtractsExactly : ∀ k : Fin 3, ∃ (s : State) (a : Int), s.phase = .seeding k ∧
    -2 ^ 31 ≤ a ∧ a < 2 ^ 31 ∧ readWord k s.toEngine = F64.ofQ32 a ∧ F64.isFinite s.acc = true := by
  intro k
  refine ⟨{ inPhase (.seeding k) with s0 := F64.ofQ32 (-2 ^ 31), s1 := F64.ofQ32 (-2 ^ 31), s2 := F64.ofQ32 (-2 ^ 31) },
    -2 ^ 31, rfl, by decide, by decide, ?_, (by decide : F64.isFinite State.reset.acc = true)⟩
  match k with
  | 0 => rfl
  | 1 => rfl
  | 2 => rfl

/-- A READY state with given words and carry. -/
def readyWith (k0 k1 k2 c : Nat) : State :=
  { inPhase .ready with s0 := F64.ofQ32 k0, s1 := F64.ofQ32 k1, s2 := F64.ofQ32 k2, x := F64.ofInt c }

/-- The ends of the ranges of the words and the carry (UINT32's statement has the same hypotheses). -/
theorem witness_RandomIsTheIntegerStep : ∃ (s : State) (k0 k1 k2 c : Nat), s.phase = .ready ∧
    (k0 < 2 ^ 32 ∧ k1 < 2 ^ 32 ∧ k2 < 2 ^ 32 ∧ c ≤ 2091639) ∧ k0 = 2 ^ 32 - 1 ∧ k1 = 0 ∧ c = 2091639 ∧
    s.s0 = F64.ofQ32 k0 ∧ s.s1 = F64.ofQ32 k1 ∧ s.s2 = F64.ofQ32 k2 ∧ s.x = F64.ofInt c :=
  ⟨readyWith (2 ^ 32 - 1) 0 1 2091639, _, _, _, _, rfl, by decide, rfl, rfl, rfl, rfl, rfl, rfl, rfl⟩

theorem witness_Uint32IsTheIntegerStep : ∃ (s : State) (k0 k1 k2 c : Nat), s.phase = .ready ∧
    (k0 < 2 ^ 32 ∧ k1 < 2 ^ 32 ∧ k2 < 2 ^ 32 ∧ c ≤ 2091639) ∧ k0 = 0 ∧ k1 = 2 ^ 32 - 1 ∧ c = 0 ∧
    s.s0 = F64.ofQ32 k0 ∧ s.s1 = F64.ofQ32 k1 ∧ s.s2 = F64.ofQ32 k2 ∧ s.x = F64.ofInt c :=
  ⟨readyWith 0 (2 ^ 32 - 1) 1 0, _, _, _, _, rfl, by decide, rfl, rfl, rfl, rfl, rfl, rfl, rfl⟩

theorem readyInv_readyWith {k0 k1 k2 c : Nat} (h0 : k0 < 2 ^ 32) (h1 : k1 < 2 ^ 32) (h2 : k2 < 2 ^ 32)
    (hc : c ≤ 2091639) : ReadyInv (readyWith k0 k1 k2 c).toEngine :=
  ⟨⟨k0, h0, rfl⟩, ⟨k1, h1, rfl⟩, ⟨k2, h2, rfl⟩, ⟨c, hc, rfl⟩⟩

theorem witness_OutputRanges : ∃ s : State, s.phase = .ready ∧ ReadyInv s.toEngine :=
  ⟨readyWith (2 ^ 32 - 1) 0 1 2091639, rfl, readyInv_readyWith (by decide) (by decide) (by decide) (by decide)⟩

theorem witness_GenerationRotatesTheWords : frankReady.phase = .ready := rfl

theorem witness_PlainTruncationGivesTheSameStep : ∃ s : State, ReadyInv s.toEngine :=
  ⟨readyWith (2 ^ 32 - 1) 0 1 2091639, readyInv_readyWith (by decide) (by decide) (by decide) (by decide)⟩

/-- The sum and the difference of finite operands, with a finite value to compare with; the zero result is below the
overflow threshold. -/
theorem witness_AdditionRoundsToNearestEven : ∃ (a b r r' c : Word) (z z' : Int),
    F64.isFinite a = true ∧ F64.isFinite b = true ∧ (r = F64.fadd a b ∧ z = F64.scaled a + F64.scaled b) ∧
    (r' = F64.fsub a b ∧ z' = F64.scaled a - F64.scaled b) ∧ z'.natAbs < F64.twoPow 2098 - F64.twoPow 2044 ∧
    F64.isFinite r' = true ∧ F64.isFinite c = true ∧ F64.scaled r' ≠ F64.scaled c := by
  refine ⟨oneF64, oneF64, _, _, twoM32, _, _, by decide, by decide, ⟨rfl, rfl⟩, ⟨rfl, rfl⟩, ?_, ?_, by decide, ?_⟩
  · rw [sub_self, Int.natAbs_zero, F64.twoPow_add 54 2044]
    have := F64.twoPow_pos 2044
    omega
  · decide +kernel
  · decide +kernel

theorem witness_MultiplicationRoundsToNearestEven : ∃ a b c : Word,
    F64.isFinite a = true ∧ F64.isFinite b = true ∧
    (F64.scaled a * F64.scaled b).natAbs < (F64.twoPow 2098 - F64.twoPow 2044) * F64.oneUnits ∧
    F64.isFinite (F64.fmul a b) = true ∧ F64.isFinite c = true ∧ F64.scaled (F64.fmul a b) ≠ F64.scaled c := by
  refine ⟨0, oneF64, twoM32, by decide, by decide, ?_, by decide +kernel, by decide, by decide +kernel⟩
  rw [show F64.scaled 0 = 0 by decide, zero_mul, Int.natAbs_zero, F64.twoPow_add 54 2044]
  have := F64.twoPow_pos 2044
  exact Nat.mul_pos (by omega) F64.oneUnits_pos

/-- A value for each clause, at its boundary: the truncations of 2^31 - 1 and -2^31, 2^84 and -2^84, the values next to
1 and -1, 2^32, 2^32 - 1, 2^31 and 2^31 + 1; and two values with the same low 32 bits. -/
theorem witness_Int32EmuLaws :
    (F64.truncVal 0x41DFFFFFFFC00000 = 2 ^ 31 - 1 ∧ F64.truncVal 0xC1E0000000000000 = -2 ^ 31) ∧
    (2 ^ 84 ≤ F64.val 0x4530000000000000 ∧ F64.val 0xC530000000000000 ≤ -2 ^ 84) ∧
    (F64.val 0x3FEFFFFFFFFFFFFF < 1 ∧ -1 < F64.val 0x3FEFFFFFFFFFFFFF ∧ -1 < F64.val 0xBFEFFFFFFFFFFFFF) ∧
    F64.truncVal 0x41F0000000000000 = 2 ^ 32 ∧ F64.truncVal 0x41EFFFFFFFE00000 = 2 ^ 32 - 1 ∧
    F64.truncVal 0x41E0000000000000 = 2 ^ 31 ∧ F64.truncVal 0x41E0000000200000 = 2 ^ 31 + 1 ∧
    F64.truncVal 0x41F0000000000000 % 2 ^ 32 = F64.truncVal 0 % 2 ^ 32 ∧ F64.isFinite 0x4530000000000000 = true := by
  decide +kernel

theorem witness_BitLevelAlgorithmAgrees :
    F64.isFinite 0x0000000000000001 = true ∧ F64.isFinite 0xFFEFFFFFFFFFFFFF = true := by decide

/-- Both ends of the range, a nonzero integer, and -0.0. -/
theorem witness_FractionalRemainderIsExact :
    (F64.isFinite 0x41DFFFFFFFFFFFFF = true ∧ F64.truncVal 0x41DFFFFFFFFFFFFF = 2 ^ 31 - 1) ∧
    (F64.isFinite 0xC1E0000000166666 = true ∧ F64.truncVal 0xC1E0000000166666 = -2 ^ 31) ∧
    (F64.val 0xC1E0000000000000 = F64.truncVal 0xC1E0000000000000) ∧
    F64.isFinite 0x8000000000000000 = true ∧ F64.truncVal 0x8000000000000000 = 0 := by decide +kernel

theorem witness_LessThanZeroTest :
    F64.isFinite 0x8000000000000000 = true ∧ F64.isNaN 0xFFF8000000000000 = true ∧
    F64.isInf 0xFFF0000000000000 = true ∧ F64.isInf 0x7FF0000000000000 = true := by decide

theorem witness_ConstantsHaveTheirValues : F64.isFinite 0x3F99CCFD23E00001 = true := by decide

theorem engineInv_reset : EngineInv State.reset.toEngine :=
  ⟨accInv_accInit, trivial⟩

theorem engineInv_ready : EngineInv (readyWith 0 1 2 1).toEngine :=
  ⟨accInv_accInit,
    readyInv_readyWith (k0 := 0) (k1 := 1) (k2 := 2) (c := 1) (by decide) (by decide) (by decide) (by decide)⟩

/-- SEEDING meets the invariant too: the state that the reset state's SEED_BEGIN values make. -/
theorem engineInv_seeding : EngineInv
    { Engine.reset with
      s0 := seedBeginWord 0, s1 := seedBeginWord 1, s2 := seedBeginWord 2, x := oneF64, phase := .seeding 0 } := by
  refine ⟨accInv_accInit, rfl, fun j => ?_⟩
  rw [if_neg (Fin.not_lt_zero j)]
  match j with
  | 0 => rfl
  | 1 => rfl
  | 2 => rfl

theorem witness_InternalTruncationOperandsAreFinite : ∃ e : Engine, EngineInv e ∧ e.phase = .ready :=
  ⟨_, engineInv_ready, rfl⟩

theorem witness_EveryStepKeepsTheInvariant : ∃ s t : State, EngineInv s.toEngine ∧ step s = .next t ∧ t.acc = accInit :=
  ⟨waiting (issue .mashInit), _, engineInv_reset, rfl, rfl⟩

/-- A phase change by SEED_BEGIN, the three folds, a fold out of its phase, and a reset. -/
theorem witness_PhaseTransitions :
    (∃ s t : State, exec .seedBegin s = .next t ∧ t.phase ≠ s.phase) ∧
    (∀ k : Fin 3, ∃ s t : State, exec .seedFold s = .next t ∧ s.phase = .seeding k) ∧
    (∃ s t : State, exec .seedFold s = .next t ∧ (∀ k, s.phase ≠ .seeding k) ∧ s.err = none) ∧
    (∃ s t : State, exec .random s = .next t ∧ s.phase ≠ .ready ∧ s.err = none) ∧
    (∃ s t : State, step s = .next t ∧ t.phase ≠ s.phase) :=
  ⟨⟨State.reset, _, rfl, by decide⟩, fun k => ⟨inPhase (.seeding k), _, rfl, rfl⟩,
    ⟨State.reset, _, rfl, by decide, rfl⟩, ⟨State.reset, _, rfl, by decide, rfl⟩,
    ⟨{ waiting .reset with phase := .ready }, _, rfl, by decide⟩⟩

/-- Two different states with the same registers. -/
theorem witness_RunsAreDeterminedByTheRegisters : ∃ s s' : State, s.toEngine = s'.toEngine ∧ s ≠ s' :=
  ⟨State.reset, { State.reset with faultMark := true }, rfl, by decide⟩

/-- A RANDOM before seeding with different DATA, and two different DATA writes. -/
theorem witness_GeneratorStateIgnoresHostData :
    (∃ s s' t t' : State, s.data ≠ s'.data ∧
      { s.toEngine with data := 0, result := 0, err := none } =
        { s'.toEngine with data := 0, result := 0, err := none } ∧
      serve (issue .random) s = .next t ∧ serve (issue .random) s' = .next t') ∧
    (∃ (bytes bytes' : List Byte) (s t t' : State), bytes ≠ bytes' ∧ serve (.write 0x08 bytes) s = .next t ∧
      serve (.write 0x08 bytes') s = .next t') ∧
    ∃ (v v' : Word) (s t t' : State), v ≠ v' ∧ serve (.resetDuringCmd v) s = .next t ∧
      serve (.resetDuringCmd v') s = .next t' :=
  ⟨⟨State.reset, { State.reset with data := 1 }, _, _, by decide, rfl, rfl, rfl⟩,
    ⟨bytesOfWord 0, bytesOfWord 1, State.reset, _, _, by decide, rfl, rfl⟩,
    ⟨0x02000061, 0x20000000, State.reset, _, _, by decide, rfl, rfl⟩⟩

/-- A state with DATA 0 whose next access is no DATA write, and one with DATA 0 that is not the reset state. -/
theorem witness_Trunc32AfterReset :
    (∃ s t : State, s.data = 0 ∧ (∀ bytes rest, s.pending ≠ .write 0x08 bytes :: rest) ∧ step s = .next t) ∧
    ∃ s : State, s.data = 0 ∧ s ≠ State.reset :=
  ⟨⟨waiting (issue .seedBegin), _, rfl, by intro _ _ h; exact absurd h (by simp [waiting, issue, cmdWrite]), rfl⟩,
    ⟨{ State.reset with acc := 0 }, rfl, by decide⟩⟩

theorem witness_Trunc32ReadsDataAtItsCommandWrite : F64.isFinite 0x41E00000001CCCCD = true := by decide

/-- Two engines, an access to the second. -/
theorem witness_EnginesAreIndependent : ∃ (p q : List Slot) (ev : BusEvent), servePlatform ev p = .next q ∧ p.length = 2 :=
  ⟨[⟨0x1000, State.reset⟩, ⟨0x1080, State.reset⟩], _, .read 0x1098 8, rfl, rfl⟩

end Sys2Proof.Tests
end

section
/-!
The statements about the arithmetic of 00_scope.md: the roundings of R10, the constants of R8 and `lt0` of R10.
-/

namespace Sys2Proof.Machine

/-! ### A rounding is nearest, ties to even -/

/-- No finite binary64 is nearer than `r` to `z` units of 2^-(1074+k), and where another value is as near the fraction
of `r` is even: roundTiesToEven of 00_scope.md R10, said of values and not of the algorithm. -/
def F64.NearestTo (k : Nat) (z : Int) (r : Word) : Prop :=
  ∀ c : Word, F64.isFinite c = true →
    (F64.scaled r * F64.twoPow k - z).natAbs ≤ (F64.scaled c * F64.twoPow k - z).natAbs ∧
    ((F64.scaled r * F64.twoPow k - z).natAbs = (F64.scaled c * F64.twoPow k - z).natAbs →
      F64.scaled r ≠ F64.scaled c → F64.fraction r % 2 = 0)

/-- `r` is the rounding of `z` units of 2^-(1074+k): finite below the overflow threshold, half a unit in the last place
above the largest finite value (log entry 21), and nearest where it is finite. -/
def F64.Rounds (k : Nat) (z : Int) (r : Word) : Prop :=
  (z.natAbs < (F64.twoPow 2098 - F64.twoPow 2044) * F64.twoPow k → F64.isFinite r = true) ∧
  (F64.isFinite r = true → F64.NearestTo k z r)

theorem F64.isFinite_pack_iff (neg : Bool) {m : Nat} (h : m < 2 ^ 63) :
    F64.isFinite (F64.pack neg m) = true ↔ m < F64.infMag := by
  rw [F64.isFinite_iff, F64.toNat_pack neg h]
  cases neg <;> simp <;> omega

theorem F64.fraction_pack_mod_two (neg : Bool) {m : Nat} (h : m < 2 ^ 63) :
    F64.fraction (F64.pack neg m) % 2 = m % 2 := by
  rw [F64.fraction_pack neg h]; omega

theorem F64.twoPow_zero : F64.twoPow 0 = 1 := by rw [F64.twoPow_eq, pow_zero]

theorem F64.roundMag_zero (k : Nat) : F64.roundMag k 0 = 0 := by
  simpa [F64.magOf] using F64.roundMag_exact k (m := 0) (by decide)

theorem F64.natAbs_scaled_mul_twoPow (b : Word) (k : Nat) :
    (F64.scaled b * F64.twoPow k).natAbs = F64.mag b * 2 ^ k := by
  rw [Int.natAbs_mul, F64.scaled_natAbs, Int.natAbs_natCast, F64.twoPow_eq]

/-- A rounding with the sign of the exact value stays on its side of 0. -/
theorem F64.scaled_pack_roundMag_side (k : Nat) {z : Int} {neg : Bool} (hneg : z ≠ 0 → neg = decide (z < 0)) :
    (0 < z → 0 ≤ F64.scaled (F64.pack neg (F64.roundMag k z.natAbs))) ∧
    (z < 0 → F64.scaled (F64.pack neg (F64.roundMag k z.natAbs)) ≤ 0) ∧
    (z = 0 → F64.scaled (F64.pack neg (F64.roundMag k z.natAbs)) = 0) := by
  rw [F64.scaled_pack neg (F64.roundMag_lt k _)]
  refine ⟨fun h => ?_, fun h => ?_, fun h => ?_⟩
  · rw [hneg h.ne', decide_eq_false h.not_gt, if_neg Bool.false_ne_true]; omega
  · rw [hneg h.ne, decide_eq_true h, if_pos rfl]; omega
  · rw [h, Int.natAbs_zero, F64.roundMag_zero]; simp [F64.magOf]

/-- Nearness of magnitudes carries over to signed values when `u` is on the side of `z`: of `w` and `-w`, the one on the
other side is no nearer to `z`, and as near only if `w` or `z` is 0. -/
theorem natAbs_sub_le_of_side {u w z : Int} {even : Prop}
    (hside : (0 < z → 0 ≤ u) ∧ (z < 0 → u ≤ 0) ∧ (z = 0 → u = 0))
    (hle : ((u.natAbs : Int) - z.natAbs).natAbs ≤ ((w.natAbs : Int) - z.natAbs).natAbs)
    (htie : ((u.natAbs : Int) - z.natAbs).natAbs = ((w.natAbs : Int) - z.natAbs).natAbs →
      w.natAbs ≠ u.natAbs → even) :
    (u - z).natAbs ≤ (w - z).natAbs ∧ ((u - z).natAbs = (w - z).natAbs → u ≠ w → even) :=
  ⟨by omega, fun heq hne => htie (by omega) (by omega)⟩

/-- The rounding of an exact value, packed with its sign, is nearest to it. -/
theorem F64.nearestTo_pack_roundMag {k : Nat} {z : Int} {neg : Bool} (hneg : z ≠ 0 → neg = decide (z < 0))
    (hf : F64.isFinite (F64.pack neg (F64.roundMag k z.natAbs)) = true) :
    F64.NearestTo k z (F64.pack neg (F64.roundMag k z.natAbs)) := by
  intro c hc
  have hlt := F64.roundMag_lt k z.natAbs
  have hpos : (0 : Int) < F64.twoPow k := Int.natCast_pos.2 (F64.twoPow_pos k)
  obtain ⟨hposSide, hnegSide, hzeroSide⟩ := F64.scaled_pack_roundMag_side k hneg
  obtain ⟨hle, htie⟩ :=
    F64.roundMag_nearest k z.natAbs _ ((F64.isFinite_pack_iff neg hlt).1 hf) ((F64.isFinite_iff c).1 hc)
  rw [← F64.fraction_pack_mod_two neg hlt, ← F64.mag_pack neg hlt, ← F64.mag_eq c] at htie
  rw [← F64.mag_pack neg hlt, ← F64.mag_eq c] at hle
  generalize F64.pack neg (F64.roundMag k z.natAbs) = r at *
  rw [← F64.natAbs_scaled_mul_twoPow r, ← F64.natAbs_scaled_mul_twoPow c] at hle htie
  have hside : (0 < z → 0 ≤ F64.scaled r * F64.twoPow k) ∧ (z < 0 → F64.scaled r * F64.twoPow k ≤ 0) ∧
      (z = 0 → F64.scaled r * F64.twoPow k = 0) :=
    ⟨fun h => mul_nonneg (hposSide h) hpos.le, fun h => mul_nonpos_of_nonpos_of_nonneg (hnegSide h) hpos.le,
      fun h => by rw [hzeroSide h, zero_mul]⟩
  obtain ⟨hnear, heven⟩ := natAbs_sub_le_of_side hside hle fun heq hne => htie heq fun h => hne (by
    rw [F64.natAbs_scaled_mul_twoPow, F64.natAbs_scaled_mul_twoPow, h])
  exact ⟨hnear, fun heq hne => heven heq fun h => hne (mul_right_cancel₀ hpos.ne' h)⟩

theorem F64.rounds_pack_roundMag {k : Nat} {z : Int} {neg : Bool} (hneg : z ≠ 0 → neg = decide (z < 0)) :
    F64.Rounds k z (F64.pack neg (F64.roundMag k z.natAbs)) :=
  ⟨fun h => F64.isFinite_pack neg (F64.roundMag_lt_infMag k _ (by rwa [F64.twoPow_eq k] at h)),
    F64.nearestTo_pack_roundMag hneg⟩

/-! ### The operations of 00_scope.md R10 -/

theorem F64.sum_rounds (op : FloatOp) {a b b' : Word} (ha : F64.isFinite a = true) (hb : F64.isFinite b' = true) :
    F64.Rounds 0 (F64.scaled a + F64.scaled b') (F64.sum op a b b') := by
  rw [F64.sum_finite op ha hb]
  exact F64.rounds_pack_roundMag fun h => if_neg h

theorem F64.fadd_rounds {a b : Word} (ha : F64.isFinite a = true) (hb : F64.isFinite b = true) :
    F64.Rounds 0 (F64.scaled a + F64.scaled b) (F64.fadd a b) :=
  F64.sum_rounds .add ha hb

theorem F64.fsub_rounds {a b : Word} (ha : F64.isFinite a = true) (hb : F64.isFinite b = true) :
    F64.Rounds 0 (F64.scaled a - F64.scaled b) (F64.fsub a b) := by
  rw [sub_eq_add_neg, ← F64.scaled_neg]
  exact F64.sum_rounds .sub ha ((F64.isFinite_neg b).trans hb)

theorem F64.sign_mul_of_ne {a b : Word} (h : F64.scaled a * F64.scaled b ≠ 0) :
    (F64.sign a ^^ F64.sign b) = decide (F64.scaled a * F64.scaled b < 0) := by
  obtain ⟨ha, hb⟩ := mul_ne_zero_iff.1 h
  rw [F64.sign_of_ne ha, F64.sign_of_ne hb]
  rcases lt_or_gt_of_ne ha with ha | ha <;> rcases lt_or_gt_of_ne hb with hb | hb
  · rw [decide_eq_true ha, decide_eq_true hb, decide_eq_false (mul_pos_of_neg_of_neg ha hb).not_gt, Bool.xor_self]
  · rw [decide_eq_true ha, decide_eq_false hb.not_gt, decide_eq_true (mul_neg_of_neg_of_pos ha hb), Bool.xor_false]
  · rw [decide_eq_false ha.not_gt, decide_eq_true hb, decide_eq_true (mul_neg_of_pos_of_neg ha hb), Bool.false_xor]
  · rw [decide_eq_false ha.not_gt, decide_eq_false hb.not_gt, decide_eq_false (mul_pos ha hb).not_gt, Bool.xor_self]

theorem F64.fmul_rounds {a b : Word} (ha : F64.isFinite a = true) (hb : F64.isFinite b = true) :
    F64.Rounds 1074 (F64.scaled a * F64.scaled b) (F64.fmul a b) := by
  rw [F64.fmul_finite ha hb, ← F64.scaled_natAbs a, ← F64.scaled_natAbs b, ← Int.natAbs_mul]
  exact F64.rounds_pack_roundMag F64.sign_mul_of_ne

/-- With `k` = 0 the unit is that of `F64.scaled`. -/
theorem F64.rounds_zero_iff (z : Int) (r : Word) : F64.Rounds 0 z r ↔
    (z.natAbs < F64.twoPow 2098 - F64.twoPow 2044 → F64.isFinite r = true) ∧
    (F64.isFinite r = true → ∀ c : Word, F64.isFinite c = true →
      (F64.scaled r - z).natAbs ≤ (F64.scaled c - z).natAbs ∧
      ((F64.scaled r - z).natAbs = (F64.scaled c - z).natAbs → F64.scaled r ≠ F64.scaled c →
        F64.fraction r % 2 = 0)) := by
  simp only [F64.Rounds, F64.NearestTo, F64.twoPow_zero, Nat.cast_one, mul_one]

/-! ### Neighbours: no value lies strictly between adjacent bit patterns (00_scope.md R8) -/

theorem F64.val_le_val_iff (a b : Word) : F64.val a ≤ F64.val b ↔ F64.scaled a ≤ F64.scaled b := by
  have hq : (0 : ℚ) < (F64.oneUnits : ℚ) := by exact_mod_cast F64.oneUnits_pos
  rw [F64.val, F64.val, div_le_div_iff_of_pos_right hq]
  exact Int.cast_le

/-- Among bit patterns with a clear sign bit the values grow with the bits, and one with the sign set is below. -/
theorem F64.val_le_of_toNat_le {a b : Word} (hb : b.toNat < 2 ^ 63) (h : a.toNat ≤ b.toNat ∨ 2 ^ 63 ≤ a.toNat) :
    F64.val a ≤ F64.val b := by
  have hsb : F64.sign b = false := by rw [F64.sign_eq, decide_eq_false hb.not_ge]
  rw [F64.val_le_val_iff, F64.scaled_nonneg hsb]
  by_cases ha : 2 ^ 63 ≤ a.toNat
  · have hsa : F64.sign a = true := by rw [F64.sign_eq, decide_eq_true ha]
    rw [F64.scaled, hsa, if_pos rfl]
    omega
  · have hsa : F64.sign a = false := by rw [F64.sign_eq, decide_eq_false ha]
    rw [F64.scaled_nonneg hsa, F64.mag_eq, F64.mag_eq]
    exact_mod_cast F64.magOf_strictMono.monotone (show a.toNat % 2 ^ 63 ≤ b.toNat % 2 ^ 63 by omega)

/-- For three adjacent bit patterns with a clear sign bit: every value is at most the lower one's, the middle one's, or
at least the upper one's. -/
theorem F64.val_le_or_eq_or_ge {p b s : Word} (hp : b.toNat = p.toNat + 1) (hs : s.toNat = b.toNat + 1)
    (h : s.toNat < 2 ^ 63) (c : Word) : F64.val c ≤ F64.val p ∨ c = b ∨ F64.val s ≤ F64.val c := by
  by_cases hle : c.toNat ≤ p.toNat ∨ 2 ^ 63 ≤ c.toNat
  · exact .inl (F64.val_le_of_toNat_le (by omega) hle)
  · rcases Nat.eq_or_lt_of_le (show b.toNat ≤ c.toNat by omega) with heq | hlt
    · exact .inr (.inl (BitVec.eq_of_toNat_eq heq.symm))
    · exact .inr (.inr (F64.val_le_of_toNat_le (by omega) (.inl (by omega))))

theorem val_mashE : F64.val mashE = 7262262018441216 / 2 ^ 58 := by decide +kernel

/-- `E` is the nearest binary64 to its literal: its two neighbours are farther away. -/
theorem mashE_nearest (c : Word) :
    |F64.val mashE - 2519603282416938 / 10 ^ 17| ≤ |F64.val c - 2519603282416938 / 10 ^ 17| := by
  have hpred : F64.val 0x3F99CCFD23DFFFFF = 7262262018441215 / 2 ^ 58 := by decide +kernel
  have hsucc : F64.val 0x3F99CCFD23E00001 = 7262262018441217 / 2 ^ 58 := by decide +kernel
  have herr : |F64.val mashE - 2519603282416938 / 10 ^ 17| ≤ 1 / 2 ^ 59 := by
    rw [val_mashE, abs_le]; constructor <;> norm_num
  rcases F64.val_le_or_eq_or_ge (p := 0x3F99CCFD23DFFFFF) (b := mashE) (s := 0x3F99CCFD23E00001) rfl rfl (by decide) c
    with hle | rfl | hge
  · refine herr.trans (le_abs.2 (.inr ?_))
    rw [hpred] at hle
    linarith
  · exact le_rfl
  · refine herr.trans (le_abs.2 (.inl ?_))
    rw [hsucc] at hge
    linarith

theorem val_accInit : F64.val accInit = 4022871197 := by
  rw [accInit_eq, F64.val_ofInt (by decide), Int.cast_ofNat]

theorem val_aleaA : F64.val aleaA = 2091639 := by
  rw [aleaA_eq, F64.val_ofInt (by decide), Int.cast_ofNat]

theorem val_two32 : F64.val two32 = 2 ^ 32 := by
  rw [two32_eq, F64.val_ofInt (by decide), Int.cast_pow, Int.cast_ofNat]

theorem val_twoM32 : F64.val twoM32 = 1 / 2 ^ 32 := by
  rw [twoM32_eq, eq_div_iff (by positivity), F64.val_ofQ32 (by decide), Int.cast_one]

theorem val_oneF64 : F64.val oneF64 = 1 := by
  have h := F64.val_ofQ32 (k := 2 ^ 32) (by decide)
  rw [← oneF64_eq, Int.cast_pow, Int.cast_ofNat] at h
  linarith

/-! ### `lt0` (00_scope.md R10) -/

theorem F64.toNat_extractLsb_low (b : Word) : (b.extractLsb 62 0).toNat = b.toNat % 2 ^ 63 := by
  rw [BitVec.extractLsb_toNat, Nat.shiftRight_zero]

theorem F64.low_eq_zero_of_mag {b : Word} (h : F64.mag b = 0) : b.extractLsb 62 0 = 0 := by
  apply BitVec.eq_of_toNat_eq
  rw [F64.toNat_extractLsb_low]
  exact F64.magOf_strictMono.injective ((F64.mag_eq b).symm.trans h)

theorem F64.val_neg_iff (b : Word) : F64.val b < 0 ↔ F64.scaled b < 0 := by
  rw [← not_le, F64.val_nonneg_iff, not_le]

/-- A value is negative exactly when the sign is set and the magnitude is not 0. -/
theorem F64.scaled_neg_iff (b : Word) : F64.scaled b < 0 ↔ F64.sign b = true ∧ b.extractLsb 62 0 ≠ 0 := by
  constructor
  · intro h
    exact ⟨by rw [F64.sign_of_ne h.ne, decide_eq_true h], fun h0 => h.ne (F64.scaled_of_low_zero h0)⟩
  · rintro ⟨hs, hlow⟩
    have hm : F64.mag b ≠ 0 := fun h => hlow (F64.low_eq_zero_of_mag h)
    rw [F64.scaled, if_pos hs]
    omega

theorem F64.lt0_iff (b : Word) : F64.lt0 b = true ↔ F64.isNaN b = false ∧ F64.scaled b < 0 := by
  rw [F64.scaled_neg_iff, F64.lt0, Bool.and_eq_true, Bool.and_eq_true, Bool.not_eq_true', bne_iff_ne]
  tauto

/-- There are two infinities, one of each sign. -/
theorem F64.eq_pack_of_isInf {b : Word} (h : F64.isInf b = true) : b = F64.pack (F64.sign b) F64.infMag := by
  rw [F64.isInf, Bool.and_eq_true, beq_iff_eq, beq_iff_eq, F64.fraction_eq] at h
  obtain ⟨hexp, hfrac⟩ := h
  have hmod : b.toNat % 2 ^ 63 = F64.infMag := by
    rw [← F64.expField_mod] at hexp
    unfold F64.infMag
    omega
  rw [← hmod]
  exact F64.eq_pack b

end Sys2Proof.Machine

namespace Sys2Proof.Proofs

open Sys2Proof.Machine

/-- Settles O35: both operations are `F64.sum`, `fsub` with the second operand negated, and a sum is one rounding. -/
theorem additionRoundsToNearestEven : Obligations.AdditionRoundsToNearestEven := by
  rintro a b r z ha hb (⟨rfl, rfl⟩ | ⟨rfl, rfl⟩)
  · exact (F64.rounds_zero_iff _ _).1 (F64.fadd_rounds ha hb)
  · exact (F64.rounds_zero_iff _ _).1 (F64.fsub_rounds ha hb)

/-- Settles O36: a product is one rounding of the exact product, in units of 2^-2148. -/
theorem multiplicationRoundsToNearestEven : Obligations.MultiplicationRoundsToNearestEven :=
  fun _ _ ha hb => F64.fmul_rounds ha hb

/-- Settles O40: the bits are the definitions, and `E` is compared with its two neighbours. -/
theorem constantsHaveTheirValues : Obligations.ConstantsHaveTheirValues :=
  ⟨rfl, val_accInit, rfl, by decide, fun c _ => mashE_nearest c, rfl, val_aleaA, rfl, val_twoM32, rfl, val_two32, rfl,
    val_oneF64, rfl⟩

/-- Settles O41: `lt0` is the sign of the value, and the infinities are two words. -/
theorem lessThanZeroTest : Obligations.LessThanZeroTest := by
  refine fun b => ⟨fun hf => ?_, fun hn => ?_, fun hi => ?_⟩
  · rw [F64.lt0_iff, F64.val_neg_iff, F64.isNaN_of_isFinite hf, eq_self_iff_true, true_and]
  · rw [← Bool.not_eq_true, F64.lt0_iff, hn]
    simp
  · rw [F64.eq_pack_of_isInf hi]
    cases F64.sign b <;> decide

end Sys2Proof.Proofs
end

section
/-!
The statements about the engine's state (10_state.md): the fields of STATUS, what the reads show, the reset values, the
writes of the access matrix, the phase machine, and the registers that the host's data never reaches.
-/

namespace Sys2Proof.Machine

/-! ### STATUS (10_state.md R29, R33) -/

theorem toNat_statusWord (e : Engine) : (statusWord e).toNat =
    (errField e.err).toNat * 2 ^ 8 + (sidxField e.phase).toNat * 2 ^ 2 + (phaseField e.phase).toNat := by
  have hp := (phaseField e.phase).isLt
  have hk := (sidxField e.phase).isLt
  have he := (errField e.err).isLt
  simp only [statusWord, statusBits, BitVec.toNat_setWidth, BitVec.toNat_append]
  rw [← Nat.shiftLeft_add_eq_or_of_lt hp, ← Nat.shiftLeft_add_eq_or_of_lt hk,
    ← Nat.shiftLeft_add_eq_or_of_lt (show (0#4).toNat < 2 ^ 4 by decide), ← Nat.shiftLeft_add_eq_or_of_lt he]
  simp only [Nat.shiftLeft_eq, BitVec.toNat_ofNat, Nat.zero_mod]
  omega

theorem toNat_extractLsb_statusWord (e : Engine) (hi lo : Nat) : ((statusWord e).extractLsb hi lo).toNat =
    ((errField e.err).toNat * 2 ^ 8 + (sidxField e.phase).toNat * 2 ^ 2 + (phaseField e.phase).toNat) / 2 ^ lo
      % 2 ^ (hi - lo + 1) := by
  rw [BitVec.extractLsb_toNat, toNat_statusWord, Nat.shiftRight_eq_div_pow]

/-- PHASE, SIDX and ERR stand in their places of R29. -/
theorem statusWord_fields (e : Engine) : (statusWord e).extractLsb 1 0 = phaseField e.phase ∧
    (statusWord e).extractLsb 3 2 = sidxField e.phase ∧ (statusWord e).extractLsb 11 8 = errField e.err := by
  have hp := (phaseField e.phase).isLt
  have hk := (sidxField e.phase).isLt
  have he := (errField e.err).isLt
  refine ⟨?_, ?_, ?_⟩ <;>
  · apply BitVec.eq_of_toNat_eq
    rw [toNat_extractLsb_statusWord]
    omega

/-- The reserved bits of STATUS, and those above it, are 0. -/
theorem statusWord_reserved (e : Engine) : (statusWord e).extractLsb 7 4 = 0 ∧
    (statusWord e).extractLsb 31 12 = 0 ∧ (statusWord e).extractLsb 63 32 = 0 := by
  have hp := (phaseField e.phase).isLt
  have hk := (sidxField e.phase).isLt
  have he := (errField e.err).isLt
  refine ⟨?_, ?_, ?_⟩ <;>
  · apply BitVec.eq_of_toNat_eq
    rw [toNat_extractLsb_statusWord]
    simp; omega

theorem phaseField_ne_three (p : Phase) : phaseField p ≠ 3 := by
  cases p <;> simp [phaseField]

theorem phaseField_eq_zero_iff (p : Phase) : phaseField p = 0 ↔ p = .idle := by
  cases p <;> simp [phaseField]

theorem phaseField_eq_one_iff (p : Phase) : phaseField p = 1 ↔ ∃ k, p = .seeding k := by
  cases p <;> simp [phaseField]

theorem phaseField_eq_two_iff (p : Phase) : phaseField p = 2 ↔ p = .ready := by
  cases p <;> simp [phaseField]

theorem toNat_sidxField_seeding (k : Fin 3) : (sidxField (.seeding k)).toNat = k.val :=
  Nat.mod_eq_of_lt (show k.val < 2 ^ 2 by omega)

/-- PHASE and SIDX together tell the phases apart. -/
theorem phase_eq_of_fields {p q : Phase} (hp : phaseField p = phaseField q) (hk : sidxField p = sidxField q) :
    p = q := by
  cases q with
  | idle => exact (phaseField_eq_zero_iff p).1 hp
  | ready => exact (phaseField_eq_two_iff p).1 hp
  | seeding k =>
    obtain ⟨j, rfl⟩ := (phaseField_eq_one_iff p).1 hp
    have hjk := congrArg BitVec.toNat hk
    rw [toNat_sidxField_seeding, toNat_sidxField_seeding] at hjk
    rw [Fin.ext hjk]

/-- The error that a code of 60_exceptions.md R126 names. -/
def errOfCode (f : BitVec 4) : Option ErrCode :=
  match f.toNat with
  | 1 => some .illegalCmd
  | 2 => some .notReady
  | 3 => some .sequence
  | 4 => some .domain
  | _ => none

theorem errOfCode_errField : Function.LeftInverse errOfCode errField
  | none => rfl
  | some .illegalCmd => rfl
  | some .notReady => rfl
  | some .sequence => rfl
  | some .domain => rfl

theorem errField_injective : Function.Injective errField := errOfCode_errField.injective

theorem toNat_errField_le (e : Option ErrCode) : (errField e).toNat ≤ 4 := by
  rcases e with _ | c
  · decide
  · cases c <;> decide

/-! ### Frames of the commands (10_state.md R38) -/

@[simp] theorem aleaStep_acc (s : State) : (aleaStep s).acc = s.acc := rfl
@[simp] theorem aleaStep_data (s : State) : (aleaStep s).data = s.data := rfl
@[simp] theorem aleaStep_phase (s : State) : (aleaStep s).phase = s.phase := rfl

theorem readWord_congr {e e' : Engine} (h0 : e.s0 = e'.s0) (h1 : e.s1 = e'.s1) (h2 : e.s2 = e'.s2) (j : Fin 3) :
    readWord j e = readWord j e' :=
  match j with
  | 0 => h0
  | 1 => h1
  | 2 => h2

@[simp] theorem readWord_writePhase (j : Fin 3) (p : Phase) (s : State) :
    readWord j (writePhase p s).toEngine = readWord j s.toEngine :=
  readWord_congr rfl rfl rfl j

@[simp] theorem readWord_raiseError (j : Fin 3) (c : ErrCode) (s : State) :
    readWord j (raiseError c s).toEngine = readWord j s.toEngine :=
  readWord_congr rfl rfl rfl j

theorem readWord_writeWord_of_ne {j k : Fin 3} (h : j ≠ k) (v : Word) (s : State) :
    readWord j (writeWord k v s).toEngine = readWord j s.toEngine := by
  fin_cases k <;> fin_cases j <;> simp [readWord] at h ⊢

/-! ### SEED_FOLD, RANDOM and UINT32 by the phase (42_alea.md R102, R104, R105) -/

theorem exec_seedFold_of_seeding {s : State} {k : Fin 3} (hk : s.phase = .seeding k) : exec .seedFold s =
    .next (writePhase (phaseAfterFold k) (writeWord k (foldWord (readWord k s.toEngine) (mashOut s.acc)) s)) := by
  simp only [exec, execSeedFold, hk]

theorem exec_seedFold_of_not_seeding {s : State} (h : ∀ k, s.phase ≠ .seeding k) :
    exec .seedFold s = .next (raiseError .sequence s) := by
  cases hp : s.phase with
  | idle => simp only [exec, execSeedFold, hp]
  | seeding k => exact absurd hp (h k)
  | ready => simp only [exec, execSeedFold, hp]

/-- SEED_FOLD writes no state word but the one that SIDX selects. -/
theorem exec_seedFold_readWord {s t : State} (h : exec .seedFold s = .next t) {j : Fin 3} (hj : s.phase ≠ .seeding j) :
    readWord j t.toEngine = readWord j s.toEngine := by
  by_cases hp : ∃ k, s.phase = .seeding k
  · obtain ⟨k, hk⟩ := hp
    rw [exec_seedFold_of_seeding hk] at h
    cases h
    have hjk : j ≠ k := fun hjk => hj (hjk ▸ hk)
    rw [readWord_writePhase, readWord_writeWord_of_ne hjk]
  · rw [exec_seedFold_of_not_seeding (not_exists.1 hp)] at h
    cases h
    exact readWord_raiseError j _ s

theorem exec_random_of_ready {s : State} (h : s.phase = .ready) :
    exec .random s = .next (writeResult (aleaStep s).s2 (aleaStep s)) := by
  simp [exec, execRandom, h, require_true]

theorem exec_random_of_not_ready {s : State} (h : s.phase ≠ .ready) :
    exec .random s = .next (raiseError .notReady s) := by
  simp [exec, execRandom, beq_false_of_ne h, require_false]

theorem exec_uint32_of_ready {s : State} (h : s.phase = .ready) :
    exec .uint32 s = .next (writeResult (zextResult (uint32Of (aleaStep s).s2)) (aleaStep s)) := by
  simp [exec, execUint32, h, require_true]

theorem exec_uint32_of_not_ready {s : State} (h : s.phase ≠ .ready) :
    exec .uint32 s = .next (raiseError .notReady s) := by
  simp [exec, execUint32, beq_false_of_ne h, require_false]

/-! ### The phase each command leaves (10_state.md R30) -/

theorem exec_seedBegin_phase {s t : State} (h : exec .seedBegin s = .next t) : t.phase = .seeding 0 := by
  rw [← Host.Outcome.next.inj h]
  rfl

theorem exec_seedFold_phase {s t : State} {k : Fin 3} (h : exec .seedFold s = .next t) (hk : s.phase = .seeding k) :
    t.phase = phaseAfterFold k := by
  rw [exec_seedFold_of_seeding hk] at h
  cases h
  rfl

theorem raiseError_err_of_none {s : State} (h : s.err = none) (c : ErrCode) : (raiseError c s).err = some c := by
  rw [raiseError_err, if_pos h]

/-- SEED_FOLD outside SEEDING changes no phase and records SEQUENCE in a clear ERR. -/
theorem exec_seedFold_out_of_phase {s t : State} (h : exec .seedFold s = .next t) (hk : ∀ k, s.phase ≠ .seeding k) :
    t.phase = s.phase ∧ (s.err = none → t.err = some .sequence) := by
  rw [exec_seedFold_of_not_seeding hk] at h
  cases h
  exact ⟨rfl, fun he => raiseError_err_of_none he _⟩

/-- RANDOM and UINT32 outside READY record NOT_READY in a clear ERR. -/
theorem exec_generate_out_of_phase {i : Instr} {s t : State} (h : exec i s = .next t)
    (hi : i = .random ∨ i = .uint32) (hr : s.phase ≠ .ready) (he : s.err = none) : t.err = some .notReady := by
  have hraise : exec i s = .next (raiseError .notReady s) := by
    rcases hi with rfl | rfl
    · exact exec_random_of_not_ready hr
    · exact exec_uint32_of_not_ready hr
  rw [hraise] at h
  cases h
  exact raiseError_err_of_none he _

/-! ### The generator's part of the engine (43_system.md R124) -/

/-- The engine with what is not the generator's (DATA, RESULT, ERR) blanked: ACC, S0, S1, S2, X, PHASE and SIDX. -/
def generatorPart (e : Engine) : Engine := { e with data := 0, result := 0, err := none }

/-- The machine right after reset, but for the generator's part, which is that of `s`. -/
def generatorRun (s : State) : State := { State.reset with toEngine := generatorPart s.toEngine }

theorem generatorRun_congr {s s' : State} (h : generatorPart s.toEngine = generatorPart s'.toEngine) :
    generatorRun s = generatorRun s' := by
  rw [generatorRun, generatorRun, h]

@[simp] theorem generatorPart_writeResult (v : Word) (s : State) :
    generatorPart (writeResult v s).toEngine = generatorPart s.toEngine := rfl
@[simp] theorem generatorPart_raiseError (c : ErrCode) (s : State) :
    generatorPart (raiseError c s).toEngine = generatorPart s.toEngine := rfl
@[simp] theorem generatorPart_generatorRun (s : State) :
    generatorPart (generatorRun s).toEngine = generatorPart s.toEngine := rfl

/-- `o` goes on in a state with the generator's part of `e`. -/
def EndsInGeneratorOf (e : Engine) (o : Host.Outcome State Fault Refusal) : Prop :=
  ∃ u, o = .next u ∧ generatorPart u.toEngine = generatorPart e

/-- TRUNC32 leaves the generator alone, whatever DATA holds. -/
theorem exec_trunc32_generatorPart (s : State) : EndsInGeneratorOf s.toEngine (exec .trunc32 s) := by
  cases hf : F64.isFinite s.data with
  | true => exact ⟨writeResult (int32Emu s.data) s, by rw [exec, execTrunc32, hf, require_true], rfl⟩
  | false => exact ⟨raiseError .domain s, by rw [exec, execTrunc32, hf, require_false], rfl⟩

/-- A command's effect on the generator can be computed from the generator's part alone. -/
theorem exec_generatorRun {i : Instr} {s t : State} (h : exec i s = .next t) :
    EndsInGeneratorOf t.toEngine (exec i (generatorRun s)) := by
  rcases exec_cases h with ⟨rfl, rfl⟩ | ⟨cu, rfl, rfl⟩ | ⟨rfl, rfl⟩ | ⟨rfl, -, rfl⟩ | ⟨rfl, -, rfl⟩ |
    ⟨rfl, a0, a1, a2, a, rfl, ha, ha0, ha1, ha2⟩ | ⟨rfl, k, hk, rfl⟩ | ⟨rfl, hk, rfl⟩ | ⟨rfl, hr, rfl⟩ |
    ⟨rfl, hr, rfl⟩ | ⟨rfl, hr, rfl⟩ | ⟨rfl, hr, rfl⟩ | ⟨rfl, rfl⟩
  · exact ⟨_, rfl, rfl⟩
  · exact ⟨_, rfl, rfl⟩
  · exact ⟨_, rfl, rfl⟩
  · simpa [EndsInGeneratorOf] using exec_trunc32_generatorPart (generatorRun s)
  · simpa [EndsInGeneratorOf] using exec_trunc32_generatorPart (generatorRun s)
  · rw [ha0, ha1, ha2, ha]
    exact ⟨_, rfl, rfl⟩
  · refine ⟨_, exec_seedFold_of_seeding (s := generatorRun s) hk, ?_⟩
    fin_cases k <;> rfl
  · exact ⟨_, exec_seedFold_of_not_seeding (s := generatorRun s) hk, rfl⟩
  · exact ⟨_, exec_random_of_ready (s := generatorRun s) hr, rfl⟩
  · exact ⟨_, exec_random_of_not_ready (s := generatorRun s) hr, rfl⟩
  · exact ⟨_, exec_uint32_of_ready (s := generatorRun s) hr, rfl⟩
  · exact ⟨_, exec_uint32_of_not_ready (s := generatorRun s) hr, rfl⟩
  · exact ⟨_, rfl, rfl⟩

/-- A read of a register, at its offset. -/
theorem serve_read (r : WindowReg) (s : State) :
    serve (.read (offsetOf r) 8) s = .next (recordRead (readReg r s.toEngine) s) := by
  simp [serve, serveRead]

/-- An event's effect on the generator can be computed from the generator's part alone. -/
theorem serve_generatorRun {ev : HostEvent} {s t : State} (h : serve ev s = .next t) :
    EndsInGeneratorOf t.toEngine (serve ev (generatorRun s)) := by
  rcases serve_cases h with ⟨r, rfl, rfl⟩ | ⟨bytes, rfl, hl, rfl⟩ | ⟨bytes, i, rfl, hl, hd, hi⟩ |
    ⟨bytes, c, rfl, hl, hd, rfl⟩ | ⟨rfl, rfl⟩ | ⟨v, rfl, rfl⟩
  · exact ⟨_, serve_read r _, rfl⟩
  · exact ⟨_, serveWrite_data hl _, rfl⟩
  · obtain ⟨u, hu, hut⟩ := exec_generatorRun hi
    exact ⟨u, (serveWrite_cmd hl _).trans ((executeCmd_ok hd _).trans hu), hut⟩
  · exact ⟨_, (serveWrite_cmd hl _).trans (executeCmd_error hd _), rfl⟩
  · exact ⟨_, rfl, rfl⟩
  · exact ⟨_, rfl, rfl⟩

/-- Equal events on engines with equal generators leave equal generators. -/
theorem serve_generatorPart_congr {ev : HostEvent} {s s' t t' : State}
    (hg : generatorPart s.toEngine = generatorPart s'.toEngine) (h : serve ev s = .next t)
    (h' : serve ev s' = .next t') : generatorPart t.toEngine = generatorPart t'.toEngine := by
  obtain ⟨u, hu, hut⟩ := serve_generatorRun h
  obtain ⟨u', hu', hut'⟩ := serve_generatorRun h'
  rw [← generatorRun_congr hg, hu] at hu'
  obtain rfl : u = u' := by simpa using hu'
  exact hut.symm.trans hut'

/-- A write anywhere but at CMD leaves the generator alone. -/
theorem serve_write_generatorPart {off : Nat} {bytes : List Byte} {s t : State} (hoff : off ≠ 0x00)
    (h : serve (.write off bytes) s = .next t) : generatorPart t.toEngine = generatorPart s.toEngine := by
  rcases serve_cases h with ⟨r, hev, -⟩ | ⟨bs, -, -, rfl⟩ | ⟨bs, i, hev, -⟩ | ⟨bs, c, hev, -⟩ | ⟨hev, -⟩ | ⟨v, hev, -⟩
  · cases hev
  · rfl
  · cases hev
    exact absurd rfl hoff
  · cases hev
    exact absurd rfl hoff
  · cases hev
  · cases hev

end Sys2Proof.Machine

namespace Sys2Proof.Proofs

open Sys2Proof.Machine

/-- Settles O12: every field reads as its own code, and the codes tell the phases and the errors apart. -/
theorem statusFieldsReadAsLaidOut : Obligations.StatusFieldsReadAsLaidOut := by
  intro e
  obtain ⟨hphase, hsidx, herr⟩ := statusWord_fields e
  obtain ⟨hlow, hmid, hhigh⟩ := statusWord_reserved e
  rw [hphase, hsidx, herr]
  exact ⟨hlow, hmid, hhigh, phaseField_ne_three _, toNat_errField_le _, phaseField_eq_zero_iff _,
    phaseField_eq_one_iff _, phaseField_eq_two_iff _, fun h => by rw [h]; rfl,
    fun k h => by rw [h, toNat_sidxField_seeding], fun h => by rw [h]; rfl, errField_injective.eq_iff' rfl,
    errField_injective.eq_iff' rfl, errField_injective.eq_iff' rfl, errField_injective.eq_iff' rfl,
    errField_injective.eq_iff' rfl⟩

/-- Settles O13: seven registers read as themselves, and STATUS gives back the phase and the error. -/
theorem readsShowTheWholeEngine : Obligations.ReadsShowTheWholeEngine := by
  intro e e' h
  have hstatus : statusWord e = statusWord e' := h .status
  obtain ⟨hphase, hsidx, herr⟩ := statusWord_fields e
  obtain ⟨hphase', hsidx', herr'⟩ := statusWord_fields e'
  rw [hstatus] at hphase hsidx herr
  have hp : e.phase = e'.phase := phase_eq_of_fields (hphase.symm.trans hphase') (hsidx.symm.trans hsidx')
  have he : e.err = e'.err := errField_injective (herr.symm.trans herr')
  cases e
  cases e'
  exact (Engine.mk.injEq ..).mpr ⟨h .acc, h .s0, h .s1, h .s2, h .x, h .data, h .result, hp, he⟩

/-- Settles O22: each of a command's ends is a write of the registers that its row names; the word that a fold leaves
alone depends on SIDX. -/
theorem accessMatrixWrites : Obligations.AccessMatrixWrites := by
  intro i s t h
  have hword : i = .seedFold → ∀ j : Fin 3, s.phase ≠ .seeding j → readWord j t.toEngine = readWord j s.toEngine := by
    rintro rfl j hj
    exact exec_seedFold_readWord h hj
  rcases exec_cases h with ⟨rfl, rfl⟩ | ⟨cu, rfl, rfl⟩ | ⟨rfl, rfl⟩ | ⟨rfl, -, rfl⟩ | ⟨rfl, -, rfl⟩ |
    ⟨rfl, a0, a1, a2, a, rfl, -⟩ | ⟨rfl, k, -, rfl⟩ | ⟨rfl, -, rfl⟩ | ⟨rfl, -, rfl⟩ | ⟨rfl, -, rfl⟩ |
    ⟨rfl, -, rfl⟩ | ⟨rfl, -, rfl⟩ | ⟨rfl, rfl⟩
  all_goals exact ⟨by simp, by simp, by simp, hword, by simp, by simp, by simp⟩

/-- Settles O14: the nine reads of the reset state evaluate to the values of R37. -/
theorem resetValues : Obligations.ResetValues :=
  ⟨rfl, rfl, rfl, rfl, rfl, rfl, rfl, rfl, rfl⟩

/-- Settles O44: ACC holds ACC_INIT, which is in range, and in IDLE nothing is asked of the Alea registers. -/
theorem invariantHoldsAtReset : Obligations.InvariantHoldsAtReset := by
  have hacc : AccInv accInit := ⟨by decide, by decide, by norm_num [val_accInit], by norm_num [val_accInit]⟩
  exact ⟨⟨hacc, trivial⟩, fun herr => absurd rfl herr⟩

theorem exec_keeps_phase {i : Instr} {s t : State} (h : exec i s = .next t) (hb : i ≠ .seedBegin)
    (hf : i ≠ .seedFold) : t.phase = s.phase := by
  obtain ⟨-, -, -, -, -, -, hphase⟩ := accessMatrixWrites i s t h
  exact hphase hb hf

/-- Only a reset, SEED_BEGIN and SEED_FOLD change the phase. -/
theorem serve_phase {ev : HostEvent} {s t : State} (h : serve ev s = .next t) (hne : t.phase ≠ s.phase) :
    (t.phase = .idle ∧ (ev = .reset ∨ ∃ v, ev = .resetDuringCmd v)) ∨
    ∃ bytes, ev = .write 0x00 bytes ∧
      (decodeCmd (wordOfBytes bytes) = .ok .seedBegin ∨ decodeCmd (wordOfBytes bytes) = .ok .seedFold) := by
  rcases serve_cases h with ⟨r, -, rfl⟩ | ⟨bytes, -, -, rfl⟩ | ⟨bytes, i, rfl, -, hd, hi⟩ |
    ⟨bytes, c, -, -, -, rfl⟩ | ⟨rfl, rfl⟩ | ⟨v, rfl, rfl⟩
  · exact absurd rfl hne
  · exact absurd rfl hne
  · by_cases hb : i = .seedBegin
    · exact .inr ⟨bytes, rfl, .inl (hb ▸ hd)⟩
    · by_cases hf : i = .seedFold
      · exact .inr ⟨bytes, rfl, .inr (hf ▸ hd)⟩
      · exact absurd (exec_keeps_phase hi hb hf) hne
  · exact absurd rfl hne
  · exact .inl ⟨rfl, .inl rfl⟩
  · exact .inl ⟨rfl, .inr ⟨v, rfl⟩⟩

/-- Settles O45: SEED_BEGIN and SEED_FOLD by what they leave, the other commands by the access matrix, and a step by
the event that it serves. -/
theorem phaseTransitions : Obligations.PhaseTransitions := by
  refine ⟨fun i s t h => ⟨?_, ?_, exec_generate_out_of_phase h, exec_keeps_phase h⟩, fun s t h hne => ?_⟩
  · rintro rfl
    exact exec_seedBegin_phase h
  · rintro rfl
    exact ⟨exec_seedFold_phase h, exec_seedFold_phase h, exec_seedFold_phase h, exec_seedFold_out_of_phase h⟩
  · rcases step_cases h with ⟨-, rfl⟩ | ⟨ev, rest, hp, hs⟩
    · exact absurd rfl hne
    · rw [hp]
      rcases serve_phase hs hne with ⟨hidle, rfl | ⟨v, rfl⟩⟩ | ⟨bytes, rfl, hd⟩
      · exact .inl ⟨hidle, .inl ⟨rest, rfl⟩⟩
      · exact .inl ⟨hidle, .inr ⟨v, rest, rfl⟩⟩
      · exact .inr ⟨bytes, rest, rfl, hd⟩

/-- Settles O51: what an event does to the generator's part is computed from that part alone. -/
theorem generatorStateIgnoresHostData : Obligations.GeneratorStateIgnoresHostData := by
  rintro ev ev' s s' t t' (rfl | ⟨off, bytes, bytes', hoff, rfl, rfl⟩ | ⟨v, v', rfl, rfl⟩) hg h h'
  · exact serve_generatorPart_congr hg h h'
  · exact (serve_write_generatorPart hoff h).trans (Eq.trans hg (serve_write_generatorPart hoff h').symm)
  · cases h
    cases h'
    rfl

end Sys2Proof.Proofs
end

section
/-!
The statements about the register window (20_memory.md): what an admitted read and an admitted write do, the byte order
of DATA, the refused accesses, and that every command write completes.
-/

namespace Sys2Proof.Machine

/-! ### Byte order (20_memory.md R48) -/

theorem natOfBytes_eq_ofDigits (bs : List Byte) : natOfBytes bs = Nat.ofDigits 256 (bs.map BitVec.toNat) := by
  induction bs with
  | nil => rfl
  | cons b bs ih => rw [natOfBytes, ih, List.map_cons, Nat.ofDigits_cons]

theorem toNat_lt_of_mem_map {bs : List Byte} {n : Nat} (h : n ∈ bs.map BitVec.toNat) : n < 256 := by
  obtain ⟨b, -, rfl⟩ := List.mem_map.1 h
  exact b.isLt

theorem natOfBytes_lt (bs : List Byte) : natOfBytes bs < 256 ^ bs.length := by
  rw [natOfBytes_eq_ofDigits, ← List.length_map (f := BitVec.toNat)]
  exact Nat.ofDigits_lt_base_pow_length (by decide) fun _ => toNat_lt_of_mem_map

theorem toNat_wordOfBytes {bs : List Byte} (h : bs.length = 8) : (wordOfBytes bs).toNat = natOfBytes bs := by
  have hlt := natOfBytes_lt bs
  rw [h] at hlt
  exact Nat.mod_eq_of_lt hlt

/-- Eight bytes are told apart by the value they carry: they are its digits to the base 256. -/
theorem wordOfBytes_inj {bs cs : List Byte} (hb : bs.length = 8) (hc : cs.length = 8)
    (h : wordOfBytes bs = wordOfBytes cs) : bs = cs := by
  have hn : natOfBytes bs = natOfBytes cs := by rw [← toNat_wordOfBytes hb, h, toNat_wordOfBytes hc]
  rw [natOfBytes_eq_ofDigits, natOfBytes_eq_ofDigits] at hn
  have hmap := Nat.ofDigits_inj_of_len_eq (by decide) (by simp [hb, hc]) (fun _ => toNat_lt_of_mem_map)
    (fun _ => toNat_lt_of_mem_map) hn
  exact List.map_injective_iff.2 (fun _ _ => BitVec.eq_of_toNat_eq) hmap

theorem bytesOfWord_wordOfBytes {bs : List Byte} (h : bs.length = 8) : bytesOfWord (wordOfBytes bs) = bs :=
  wordOfBytes_inj (length_bytesOfWord _) h (wordOfBytes_bytesOfWord _)

theorem getElem?_bytesOfWord (v : Word) {i : Nat} (h : i < 8) :
    (bytesOfWord v)[i]? = some (v.extractLsb' (8 * i) 8) := by
  simp [bytesOfWord, h]

/-! ### The window as bytes -/

theorem windowByte_data (e : Engine) {i : Nat} (h : i < 8) : windowByte (0x08 + i) e = (bytesOfWord e.data)[i]? := by
  have hmod : (0x08 + i) % 8 = i := by omega
  rw [windowByte, hmod, Nat.add_sub_cancel, getElem?_bytesOfWord _ h]
  rfl

theorem regAt_eq_some {off : Nat} {r : WindowReg} (halign : off % 8 = 0) (h : regAt off = some r) :
    off = offsetOf r := by
  have hr : accessReg off 8 = .ok r := by simp [accessReg, halign, h]
  exact (accessReg_ok hr).2

theorem readReg_writeData_of_ne {r : WindowReg} (h : r ≠ .data) (v : Word) (s : State) :
    readReg r (writeData v s).toEngine = readReg r s.toEngine := by
  cases r with
  | data => exact absurd rfl h
  | _ => rfl

/-- A byte outside DATA belongs to another register, or to none. -/
theorem windowByte_writeData_of_outside {off : Nat} (h : off < 0x08 ∨ 0x10 ≤ off) (v : Word) (s : State) :
    windowByte off (writeData v s).toEngine = windowByte off s.toEngine := by
  unfold windowByte
  cases hr : regAt (off - off % 8) with
  | none => rfl
  | some r =>
    have hoff := regAt_eq_some (by omega) hr
    have hne : r ≠ .data := by
      rintro rfl
      have : off - off % 8 = 0x08 := hoff
      omega
    rw [Option.map_some, Option.map_some, readReg_writeData_of_ne hne]

/-! ### Commands complete (20_memory.md R58, 60_exceptions.md R125) -/

theorem require_next (ok : Bool) (c : ErrCode) (done s : State) : ∃ t, require ok c done s = .next t := by
  cases ok with
  | true => exact ⟨done, rfl⟩
  | false => exact ⟨raiseError c s, rfl⟩

theorem exec_next (i : Instr) (s : State) : ∃ t, exec i s = .next t := by
  cases i with
  | trunc32 => exact require_next _ _ _ _
  | random => exact require_next _ _ _ _
  | uint32 => exact require_next _ _ _ _
  | seedFold =>
    by_cases hp : ∃ k, s.phase = .seeding k
    · obtain ⟨k, hk⟩ := hp
      exact ⟨_, exec_seedFold_of_seeding hk⟩
    · exact ⟨_, exec_seedFold_of_not_seeding (not_exists.1 hp)⟩
  | _ => exact ⟨_, rfl⟩

/-- No command touches the waiting accesses, the values read or the free values' counter. -/
theorem exec_sameRun {i : Instr} {s t : State} (h : exec i s = .next t) : SameRun s t := by
  rcases exec_cases h with ⟨-, rfl⟩ | ⟨cu, -, rfl⟩ | ⟨-, rfl⟩ | ⟨-, -, rfl⟩ | ⟨-, -, rfl⟩ |
    ⟨-, a0, a1, a2, a, rfl, -⟩ | ⟨-, k, -, rfl⟩ | ⟨-, -, rfl⟩ | ⟨-, -, rfl⟩ | ⟨-, -, rfl⟩ | ⟨-, -, rfl⟩ |
    ⟨-, -, rfl⟩ | ⟨-, rfl⟩
  all_goals simp [SameRun, aleaStep]

theorem executeCmd_next (v : Word) (s : State) : ∃ t, executeCmd v s = .next t := by
  cases hd : decodeCmd v with
  | ok i => exact executeCmd_ok hd s ▸ exec_next i s
  | error c => exact ⟨_, executeCmd_error hd s⟩

theorem exec_trunc32_of_isFinite {s : State} (h : F64.isFinite s.data = true) :
    exec .trunc32 s = .next (writeResult (int32Emu s.data) s) := by
  rw [exec, execTrunc32, h, require_true]

/-! ### The commands that a host program issues (30_encoding.md R73) -/

theorem decodeCmd_encode (i : Instr) : decodeCmd (encode i) = .ok i := by
  rw [decodeCmd, hiField_encode, rsvField_encode, opcField_encode]
  cases i <;> simp [opcodeOf, immediateOf, noImmediate]

theorem serve_issue (i : Instr) (s : State) : serve (issue i) s = exec i s :=
  (serve_cmdWrite _ s).trans (executeCmd_ok (decodeCmd_encode i) s)

/-! ### Refused and served accesses (20_memory.md R47, R50, R51) -/

theorem serveRead_refused {off width : Nat} (h : width ≠ 8 ∨ off % 8 ≠ 0 ∨ 0x48 ≤ off) (s : State) :
    ∃ c, serveRead off width s = .fault (.busError c) := by
  cases hr : accessReg off width with
  | error c => exact ⟨c, by rw [serveRead, hr]⟩
  | ok r =>
    have hserved := (accessReg_served off width).1 ⟨r, hr⟩
    omega

theorem serveRead_served {off width : Nat} (h : ¬(width ≠ 8 ∨ off % 8 ≠ 0 ∨ 0x48 ≤ off)) (s : State) :
    ∃ t, serveRead off width s = .next t := by
  obtain ⟨r, hr⟩ := (accessReg_served off width).2 (by omega)
  exact ⟨recordRead (readReg r s.toEngine) s, by rw [serveRead, hr]⟩

theorem serveWrite_refused {off : Nat} {bytes : List Byte}
    (h : bytes.length ≠ 8 ∨ off % 8 ≠ 0 ∨ (off ≠ 0x00 ∧ off ≠ 0x08)) (s : State) :
    ∃ c, serveWrite off bytes s = .fault (.busError c) := by
  cases hr : accessReg off bytes.length with
  | error c => exact ⟨c, by rw [serveWrite, hr]⟩
  | ok r =>
    obtain ⟨hlen, rfl⟩ := accessReg_ok hr
    cases r with
    | cmd => simp [hlen, offsetOf] at h
    | data => simp [hlen, offsetOf] at h
    | _ => exact ⟨.readOnly, by rw [serveWrite, hr]⟩

theorem serveWrite_served {off : Nat} {bytes : List Byte}
    (h : ¬(bytes.length ≠ 8 ∨ off % 8 ≠ 0 ∨ (off ≠ 0x00 ∧ off ≠ 0x08))) (s : State) :
    ∃ t, serveWrite off bytes s = .next t := by
  have hlen : bytes.length = 8 := by omega
  obtain rfl | rfl : off = 0x00 ∨ off = 0x08 := by omega
  · exact serveWrite_cmd hlen s ▸ executeCmd_next _ s
  · exact ⟨_, serveWrite_data hlen s⟩

end Sys2Proof.Machine

namespace Sys2Proof.Proofs

open Sys2Proof.Machine

/-- Settles O8: the eight bytes are the byte lanes of `v`, so the step serves the DATA write of `v`. -/
theorem dataWriteIsLittleEndian : Obligations.DataWriteIsLittleEndian := by
  intro s rest v hp
  exact (step_cons hp).trans (serve_dataWrite v _)

/-- Settles O9: DATA holds the value of the bytes, which has them as its lanes; no other register changes. -/
theorem dataWriteChangesItsBytesOnly : Obligations.DataWriteChangesItsBytesOnly := by
  intro s bytes rest hp hlen
  refine ⟨writeData (wordOfBytes bytes) (withPending rest s), ?_, fun i hi => ?_, fun off hoff => ?_⟩
  · exact (step_cons hp).trans (serveWrite_data hlen _)
  · rw [windowByte_data _ hi, writeData_data, bytesOfWord_wordOfBytes hlen]
  · exact windowByte_writeData_of_outside hoff _ _

/-- Settles O11: the conditions are those under which the window finds no register, or a write finds one that is neither
CMD nor DATA; a CMD write that is served completes whatever value it carries. -/
theorem busErrorConditions : Obligations.BusErrorConditions := by
  intro s off rest
  constructor
  · intro width hp
    rw [step_cons hp]
    split
    · exact serveRead_refused ‹_› _
    · exact serveRead_served ‹_› _
  · intro bytes hp
    rw [step_cons hp]
    split
    · exact serveWrite_refused ‹_› _
    · exact serveWrite_served ‹_› _

/-- Settles O21: every command answers a next state, and each of its ends writes registers and the fault mark only. -/
theorem everyCommandCompletes : Obligations.EveryCommandCompletes := by
  intro i s
  obtain ⟨t, ht⟩ := exec_next i s
  exact ⟨t, ht, exec_sameRun ht⟩

/-- Settles O50: the three accesses are served in turn, and TRUNC32 finds the first value in DATA. -/
theorem trunc32ReadsDataAtItsCommandWrite : Obligations.Trunc32ReadsDataAtItsCommandWrite := by
  intro s d d' hd
  have htrunc : serve (issue .trunc32) (writeData d s) = .next (writeResult (int32Emu d) (writeData d s)) :=
    (serve_issue .trunc32 _).trans (exec_trunc32_of_isFinite hd)
  calc runEvents [dataWrite d, issue .trunc32, dataWrite d'] s
      = runEvents [issue .trunc32, dataWrite d'] (writeData d s) := runEvents_cons (serve_dataWrite d s) _
    _ = runEvents [dataWrite d'] (writeResult (int32Emu d) (writeData d s)) := runEvents_cons htrunc _
    _ = runEvents [] (writeData d' (writeResult (int32Emu d) (writeData d s))) :=
      runEvents_cons (serve_dataWrite d' _) _

/-- Settles O5: a CMD write of eight bytes executes the value they carry, which decodes to `i`. -/
theorem stepRunsTheDecodedCommand : Obligations.StepRunsTheDecodedCommand := by
  intro s bytes rest i hp hlen hd _
  calc step s = serveWrite 0x00 bytes (withPending rest s) := step_cons hp
    _ = executeCmd (wordOfBytes bytes) (withPending rest s) := serveWrite_cmd hlen _
    _ = exec i (withPending rest s) := executeCmd_ok hd _

/-- Settles O7: the nine offsets and values are those of the nine registers. -/
theorem readReturnsTheMappedRegister : Obligations.ReadReturnsTheMappedRegister := by
  intro s rest p hmem hp
  change p ∈ [WindowReg.cmd, .data, .result, .status, .acc, .s0, .s1, .s2, .x].map
    (fun r => (offsetOf r, readReg r s.toEngine)) at hmem
  obtain ⟨r, -, rfl⟩ := List.mem_map.1 hmem
  exact (step_cons hp).trans (serve_read r _)

end Sys2Proof.Proofs
end

section
/-!
The statements about the command encoding (30_encoding.md): a CMD value decodes to a command exactly if it is that
command's encoding. From this follow the rows of the opcode map, the conditions for an illegal value and what a write of
one does.
-/

namespace Sys2Proof

/-! ### A value that decodes is its command's encoding (30_encoding.md R66) -/

/-- The four fields of format C hold every bit of a CMD value. -/
theorem eq_of_fields {v w : Word} (hhi : hiField v = hiField w) (hrsv : rsvField v = rsvField w)
    (hopc : opcField v = opcField w) (himm : immField v = immField w) : v = w := by
  apply BitVec.eq_of_toNat_eq
  apply_fun BitVec.toNat at hhi hrsv hopc himm
  rw [toNat_hiField, toNat_hiField] at hhi
  rw [toNat_rsvField, toNat_rsvField] at hrsv
  rw [toNat_opcField, toNat_opcField] at hopc
  rw [toNat_immField, toNat_immField] at himm
  omega

theorem eq_encode_iff (v : Word) (i : Instr) :
    v = encode i ↔ hiField v = 0 ∧ rsvField v = 0 ∧ opcField v = opcodeOf i ∧ immField v = immediateOf i := by
  constructor
  · rintro rfl
    exact ⟨hiField_encode i, rsvField_encode i, opcField_encode i, immField_encode i⟩
  · rintro ⟨hhi, hrsv, hopc, himm⟩
    exact eq_of_fields (hhi.trans (hiField_encode i).symm) (hrsv.trans (rsvField_encode i).symm)
      (hopc.trans (opcField_encode i).symm) (himm.trans (immField_encode i).symm)

theorem decodeCmd_eq_ok_iff {v : Word} {i : Instr} : decodeCmd v = .ok i ↔ v = encode i := by
  constructor
  · intro h
    exact (eq_encode_iff v i).2 (decodeCmd_ok h)
  · rintro rfl
    exact Machine.decodeCmd_encode i

theorem encode_injective : Function.Injective encode := by
  intro i j h
  have hd : decodeCmd (encode i) = .ok j := decodeCmd_eq_ok_iff.2 h
  rw [Machine.decodeCmd_encode] at hd
  exact Except.ok.inj hd

theorem encode_mashStep (cu : CodeUnit) : encode (.mashStep cu) = 0x0000000002000000 ||| cu.setWidth 64 := by
  have hhigh : (0#32 ++ (0x02 : BitVec 8) ++ 0#8).shiftLeftZeroExtend 16 = 0x0000000002000000 := by decide
  rw [encode, BitVec.append_def, BitVec.setWidth'_eq, opcodeOf, hhigh, immediateOf]

/-! ### The rows of the opcode map (30_encoding.md R68) -/

/-- Match and mask of a command's row: MASH_STEP's mask leaves IMM16 out, every other row is one value. -/
def rowOf : Instr → Word × Word
  | .mashStep _ => (encode (.mashStep 0), 0xFFFFFFFFFFFF0000)
  | i => (encode i, BitVec.allOnes 64)

theorem opcodeRows_rowIndex (i : Instr) : opcodeRows[rowIndex i]? = some (rowOf i) := by
  cases i <;> rfl

theorem exists_rowIndex_eq {n : Nat} (h : n < opcodeRows.length) : ∃ i, rowIndex i = n := by
  have h : n < 9 := h
  interval_cases n
  exacts [⟨.mashInit, rfl⟩, ⟨.mashStep 0, rfl⟩, ⟨.mashOut, rfl⟩, ⟨.trunc32, rfl⟩, ⟨.seedBegin, rfl⟩, ⟨.seedFold, rfl⟩,
    ⟨.random, rfl⟩, ⟨.uint32, rfl⟩, ⟨.clrErr, rfl⟩]

/-- Every row is a command's. -/
theorem exists_rowOf_eq {n : Nat} {row : Word × Word} (h : opcodeRows[n]? = some row) :
    ∃ i, rowIndex i = n ∧ rowOf i = row := by
  obtain ⟨hn, -⟩ := List.getElem?_eq_some_iff.1 h
  obtain ⟨i, rfl⟩ := exists_rowIndex_eq hn
  exact ⟨i, rfl, Option.some.inj ((opcodeRows_rowIndex i).symm.trans h)⟩

/-- MASH_STEP's mask keeps HI, OPC and RSV and clears IMM16. -/
theorem fields_and_mashStepMask (v : Word) :
    hiField (v &&& 0xFFFFFFFFFFFF0000) = hiField v ∧ rsvField (v &&& 0xFFFFFFFFFFFF0000) = rsvField v ∧
      opcField (v &&& 0xFFFFFFFFFFFF0000) = opcField v ∧ immField (v &&& 0xFFFFFFFFFFFF0000) = 0 :=
  ⟨BitVec.extractLsb_and.trans BitVec.and_allOnes, BitVec.extractLsb_and.trans BitVec.and_allOnes,
    BitVec.extractLsb_and.trans BitVec.and_allOnes, BitVec.extractLsb_and.trans BitVec.and_zero⟩

theorem inRow_rowOf_mashStep_iff (v : Word) (cu : CodeUnit) :
    inRow v (rowOf (.mashStep cu)) = true ↔ ∃ cu', v = encode (.mashStep cu') := by
  obtain ⟨hhi, hrsv, hopc, himm⟩ := fields_and_mashStepMask v
  rw [inRow, rowOf, beq_iff_eq, eq_encode_iff, hhi, hrsv, hopc, himm]
  simp [eq_encode_iff, opcodeOf, immediateOf]

theorem inRow_allOnes_iff (v w : Word) : inRow v (w, BitVec.allOnes 64) = true ↔ v = w := by
  rw [inRow, BitVec.and_allOnes, beq_iff_eq]

theorem exists_encode_of_inRow {v : Word} {i : Instr} (h : inRow v (rowOf i) = true) :
    ∃ j, rowIndex j = rowIndex i ∧ v = encode j := by
  cases i with
  | mashStep cu =>
    obtain ⟨cu', rfl⟩ := (inRow_rowOf_mashStep_iff v cu).1 h
    exact ⟨.mashStep cu', rfl, rfl⟩
  | _ => exact ⟨_, rfl, (inRow_allOnes_iff v _).1 h⟩

theorem inRow_encode_rowOf (i : Instr) : inRow (encode i) (rowOf i) = true := by
  cases i with
  | mashStep cu => exact (inRow_rowOf_mashStep_iff _ cu).2 ⟨cu, rfl⟩
  | _ => exact (inRow_allOnes_iff _ _).2 rfl

/-! ### Legal values (30_encoding.md R69) -/

theorem legalCmd_iff_fields (v : Word) : legalCmd v = true ↔ hiField v = 0 ∧ rsvField v = 0 ∧
    opcField v ∈ assignedOpcodes ∧ (opcField v = 0x02 ∨ immField v = 0) := by
  simp only [legalCmd, hiField, rsvField, opcField, immField, Bool.and_eq_true, Bool.or_eq_true, beq_iff_eq,
    List.contains_iff_mem, and_assoc]

theorem encodingLegal (i : Instr) : Laws.EncodingLegal.Statement i := by
  cases i with
  | mashInit => exact Laws.EncodingLegal.mashInit
  | mashStep cu => exact Laws.EncodingLegal.mashStep cu
  | mashOut => exact Laws.EncodingLegal.mashOut
  | trunc32 => exact Laws.EncodingLegal.trunc32
  | seedBegin => exact Laws.EncodingLegal.seedBegin
  | seedFold => exact Laws.EncodingLegal.seedFold
  | random => exact Laws.EncodingLegal.random
  | uint32 => exact Laws.EncodingLegal.uint32
  | clrErr => exact Laws.EncodingLegal.clrErr

theorem exists_opcodeOf_eq {o : BitVec 8} (h : o ∈ assignedOpcodes) : ∃ i, opcodeOf i = o ∧ immediateOf i = 0 := by
  change o ∈ [Instr.mashInit, .mashStep 0, .mashOut, .trunc32, .seedBegin, .seedFold, .random, .uint32, .clrErr].map
    opcodeOf at h
  obtain ⟨i, hi, rfl⟩ := List.mem_map.1 h
  refine ⟨i, rfl, ?_⟩
  clear h
  revert i
  decide

/-- The command with a legal value's OPC and IMM16: MASH_STEP carries any IMM16, the others carry 0. -/
theorem exists_instr_of_fields {o : BitVec 8} {imm : CodeUnit} (ho : o ∈ assignedOpcodes) (himm : o = 0x02 ∨ imm = 0) :
    ∃ i, o = opcodeOf i ∧ imm = immediateOf i := by
  rcases himm with rfl | rfl
  · exact ⟨.mashStep imm, rfl, rfl⟩
  · obtain ⟨i, hopc, himm⟩ := exists_opcodeOf_eq ho
    exact ⟨i, hopc.symm, himm.symm⟩

/-- A value is legal exactly if it is the encoding of a command. -/
theorem legalCmd_iff (v : Word) : legalCmd v = true ↔ ∃ i, v = encode i := by
  constructor
  · intro h
    obtain ⟨hhi, hrsv, hopc, himm⟩ := (legalCmd_iff_fields v).1 h
    obtain ⟨i, hi⟩ := exists_instr_of_fields hopc himm
    exact ⟨i, (eq_encode_iff v i).2 ⟨hhi, hrsv, hi⟩⟩
  · rintro ⟨i, rfl⟩
    obtain ⟨-, hlegal, -⟩ := encodingLegal i
    exact hlegal

/-- The decoder refuses the values that are not legal. -/
theorem decodeCmd_error_iff (v : Word) : (∃ c, decodeCmd v = .error c) ↔ ¬ legalCmd v = true := by
  rw [legalCmd_iff]
  cases hd : decodeCmd v with
  | ok i => simp [decodeCmd_eq_ok_iff.1 hd]
  | error c =>
    refine iff_of_true ⟨c, rfl⟩ ?_
    rintro ⟨i, rfl⟩
    simp [Machine.decodeCmd_encode] at hd

end Sys2Proof

namespace Sys2Proof.Proofs

open Sys2Proof.Machine

/-- Settles O2: decoding inverts `encode`, and the four fields, which hold every bit, give the word back. -/
theorem decodeEncodeRoundTrip : Obligations.DecodeEncodeRoundTrip :=
  ⟨fun i _ => decodeCmd_encode i, fun _ _ => decodeCmd_eq_ok_iff.1⟩

/-- Settles O3: every row is a command's, and what lies in it is the encoding of a command of that row. -/
theorem decodingIsTotalAndUnambiguous : Obligations.DecodingIsTotalAndUnambiguous := by
  intro v
  cases hd : decodeCmd v with
  | ok i =>
    obtain rfl := decodeCmd_eq_ok_iff.1 hd
    refine .inl ⟨i, rfl, fun n => ⟨?_, ?_⟩⟩
    · rintro ⟨row, hrow, hin⟩
      obtain ⟨j, rfl, rfl⟩ := exists_rowOf_eq hrow
      obtain ⟨k, hk, henc⟩ := exists_encode_of_inRow hin
      rw [encode_injective henc, hk]
    · rintro rfl
      exact ⟨rowOf i, opcodeRows_rowIndex i, inRow_encode_rowOf i⟩
  | error c =>
    refine .inr ⟨⟨c, rfl⟩, fun row hrow => Bool.eq_false_iff.2 fun hin => ?_⟩
    obtain ⟨n, hn⟩ := List.mem_iff_getElem?.1 hrow
    obtain ⟨i, -, rfl⟩ := exists_rowOf_eq hn
    obtain ⟨j, -, rfl⟩ := exists_encode_of_inRow hin
    rw [decodeCmd_encode] at hd
    cases hd

/-- Settles O4: the conditions are those under which `legalCmd` fails, and a legal value is a command's encoding. -/
theorem illegalCommandConditions : Obligations.IllegalCommandConditions := by
  intro v
  rw [decodeCmd_error_iff, legalCmd_iff_fields, not_and_or, not_and_or, not_and_or, not_or]
  rfl

/-- Settles O6: the decoder refuses the value, so its write raises ILLEGAL_CMD. -/
theorem illegalCommandRecordsOnlyTheError : Obligations.IllegalCommandRecordsOnlyTheError := by
  rintro s bytes rest v hp hlen rfl hillegal
  obtain ⟨c, hd⟩ := (illegalCommandConditions _).2 hillegal
  calc step s = serveWrite 0x00 bytes (withPending rest s) := step_cons hp
    _ = executeCmd (wordOfBytes bytes) (withPending rest s) := serveWrite_cmd hlen _
    _ = .next (raiseError .illegalCmd (withPending rest s)) := executeCmd_error hd _

/-- Settles O1: each word is its command's encoding. -/
theorem opcodeMapWords : Obligations.OpcodeMapWords := by
  refine ⟨decodeCmd_encode .mashInit, fun cu => ?_, decodeCmd_encode .mashOut, decodeCmd_encode .trunc32,
    decodeCmd_encode .seedBegin, decodeCmd_encode .seedFold, decodeCmd_encode .random, decodeCmd_encode .uint32,
    decodeCmd_encode .clrErr⟩
  rw [← encode_mashStep, decodeCmd_encode]

end Sys2Proof.Proofs
end

section
/-!
The statements about the int32 truncation (40_int32.md): TRUNC32, the laws of `Int32Emu`, the bit-level algorithm, the
fractional remainder, and that every operand of an internal truncation is finite.
-/

namespace Sys2Proof.Machine

/-! ### The integer part (00_scope.md R10) -/

/-- The integer part is that of the magnitude, with the sign. -/
theorem F64.truncVal_eq (b : Word) : F64.truncVal b =
    if F64.sign b then -((F64.mag b / F64.oneUnits : Nat) : Int) else (F64.mag b / F64.oneUnits : Nat) := by
  rw [F64.truncVal, F64.scaled]
  split
  · rw [Int.neg_tdiv]; rfl
  · rfl

/-- A representable magnitude cut off at a bit is representable. -/
theorem F64.rep_div_mul {n : Nat} (h : F64.Rep n) (u : Nat) : F64.Rep (n / 2 ^ u * 2 ^ u) := by
  obtain ⟨m, hm, rfl⟩ := h
  obtain ⟨q, c, rfl, hc, hq, -⟩ := F64.exists_parts m
  rw [F64.magOf_add hc.le hq]
  have hq' : q ≤ 2045 := by rw [F64.infMag_eq] at hm; omega
  rcases Nat.le_total u q with hu | hu
  · rw [Nat.div_mul_cancel (Dvd.dvd.mul_left (pow_dvd_pow 2 hu) c)]
    exact F64.rep_mul_pow hc hq'
  · have hu' : 2 ^ u = 2 ^ (u - q) * 2 ^ q := by rw [← pow_add, Nat.sub_add_cancel hu]
    rw [hu', Nat.mul_div_mul_right _ _ (Nat.two_pow_pos q), ← mul_assoc]
    exact F64.rep_mul_pow ((Nat.div_mul_le_self _ _).trans_lt hc) hq'

/-- A representable magnitude of more than 52 bits beyond `u` ends in `u` zeros. -/
theorem F64.two_pow_dvd_of_rep {n u : Nat} (h : F64.Rep n) (hn : 2 ^ (52 + u) ≤ n) : 2 ^ u ∣ n := by
  obtain ⟨m, -, rfl⟩ := h
  obtain ⟨q, c, rfl, hc, hq, -⟩ := F64.exists_parts m
  rw [F64.magOf_add hc.le hq] at hn ⊢
  have hlt : 2 ^ (52 + u) < 2 ^ (53 + q) := by
    rw [pow_add 2 53 q]
    exact hn.trans_lt (Nat.mul_lt_mul_of_pos_right hc (Nat.two_pow_pos q))
  have huq : u ≤ q := by
    have := (Nat.pow_lt_pow_iff_right (by decide)).1 hlt
    omega
  exact Dvd.dvd.mul_left (pow_dvd_pow 2 huq) c

/-- The integer part of a finite binary64 is one itself. -/
theorem F64.truncVal_ofInt_truncVal {v : Word} (h : F64.isFinite v = true) :
    F64.truncVal (F64.ofInt (F64.truncVal v)) = F64.truncVal v := by
  have hrep : F64.Rep (F64.truncVal v * F64.oneUnits).natAbs := by
    have hcut := F64.rep_div_mul (F64.rep_mag h) 1074
    rw [← F64.twoPow_eq, ← F64.oneUnits] at hcut
    rw [Int.natAbs_mul, F64.truncVal, Int.natAbs_tdiv, F64.scaled_natAbs, Int.natAbs_natCast]
    exact hcut
  conv_lhs => rw [F64.truncVal, F64.ofInt, F64.scaled_ofScaled hrep]
  exact Int.mul_tdiv_cancel _ F64.oneUnits_ne

theorem F64.truncVal_of_mag_lt {v : Word} (h : F64.mag v < F64.oneUnits) : F64.truncVal v = 0 := by
  rw [F64.truncVal_eq, Nat.div_eq_of_lt h]
  simp

/-- From 2^84 on a binary64 is a multiple of 2^32. -/
theorem F64.truncVal_emod_of_le_mag {v : Word} (h : F64.isFinite v = true) (hv : 2 ^ 84 * F64.oneUnits ≤ F64.mag v) :
    F64.truncVal v % 2 ^ 32 = 0 := by
  have hdvd : 2 ^ 32 * F64.oneUnits ∣ F64.mag v := by
    have hu : 2 ^ (32 + 1074) = 2 ^ 32 * F64.oneUnits := by rw [pow_add, F64.oneUnits, F64.twoPow_eq]
    rw [← hu]
    refine F64.two_pow_dvd_of_rep (F64.rep_mag h) (le_trans ?_ hv)
    rw [pow_add, hu, ← mul_assoc]
    exact Nat.mul_le_mul_right _ (by decide)
  have hq : 2 ^ 32 ∣ F64.mag v / F64.oneUnits := Nat.dvd_div_of_mul_dvd (by rwa [mul_comm])
  rw [F64.truncVal_eq]
  generalize F64.mag v / F64.oneUnits = q at *
  split <;> omega

/-! ### Bounds on a value as bounds on its magnitude -/

theorem F64.abs_val (b : Word) : |F64.val b| = (F64.mag b : ℚ) / F64.oneUnits := by
  rw [F64.val, abs_div, Nat.abs_cast, ← Int.cast_abs, ← F64.scaled_natAbs, Nat.cast_natAbs]

theorem F64.le_abs_val_iff (b : Word) (k : Nat) : (k : ℚ) ≤ |F64.val b| ↔ k * F64.oneUnits ≤ F64.mag b := by
  have hq : (0 : ℚ) < F64.oneUnits := Nat.cast_pos.2 F64.oneUnits_pos
  rw [F64.abs_val, le_div_iff₀ hq]
  exact_mod_cast Iff.rfl

theorem F64.abs_val_lt_iff (b : Word) (k : Nat) : |F64.val b| < k ↔ F64.mag b < k * F64.oneUnits := by
  rw [← not_le, F64.le_abs_val_iff, not_le]

theorem F64.val_eq_zero_iff (b : Word) : F64.val b = 0 ↔ F64.scaled b = 0 := by
  rw [F64.val, div_eq_zero_iff, or_iff_left (Nat.cast_ne_zero.2 F64.oneUnits_pos.ne'), Int.cast_eq_zero]

/-! ### `Int32Emu` (40_int32.md R80, R81) -/

theorem val_int32Emu {v : Word} (h : F64.isFinite v = true) : F64.val (int32Emu v) = int32Of v := by
  rw [int32Emu_of_isFinite h, F64.val_ofInt (int32Of_natAbs_lt v)]

theorem int32Emu_ne_negZero {v : Word} (h : F64.isFinite v = true) : int32Emu v ≠ 0x8000000000000000 := by
  rw [int32Emu_of_isFinite h]
  exact F64.ofScaled_ne_negZero _

theorem int32Of_congr {v w : Word} (h : F64.truncVal w % 2 ^ 32 = F64.truncVal v % 2 ^ 32) :
    int32Of w = int32Of v := by
  rw [int32Of, int32Of, h]

theorem F64.ofScaled_zero : F64.ofScaled 0 = 0 := by decide

theorem F64.ofInt_zero : F64.ofInt 0 = 0 := by rw [F64.ofInt, zero_mul, F64.ofScaled_zero]

theorem int32Emu_eq_zero {v : Word} (h : F64.isFinite v = true) (hv : F64.truncVal v % 2 ^ 32 = 0) :
    int32Emu v = 0 := by
  have h0 : int32Of v = 0 := by rw [int32Of, hv]; rfl
  rw [int32Emu_of_isFinite h, h0, F64.ofInt_zero]

/-- `Int32Emu` is the plain truncation exactly where the integer part is a signed 32-bit integer (R81 law 2). -/
theorem int32Emu_eq_ofInt_truncVal_iff {v : Word} (h : F64.isFinite v = true) :
    int32Emu v = F64.ofInt (F64.truncVal v) ↔ -2 ^ 31 ≤ F64.truncVal v ∧ F64.truncVal v < 2 ^ 31 := by
  rw [int32Emu_of_isFinite h]
  constructor
  · intro he
    have ht := congrArg F64.truncVal he
    rw [F64.truncVal_ofInt (int32Of_natAbs_lt v), F64.truncVal_ofInt_truncVal h] at ht
    exact ht ▸ int32Of_range v
  · intro hr
    rw [int32Of_of_range hr]

theorem int32Emu_int32Emu {v : Word} (h : F64.isFinite v = true) : int32Emu (int32Emu v) = int32Emu v := by
  rw [int32Emu_of_isFinite (isFinite_int32Emu h), int32Emu_of_isFinite h, int32Of_ofInt (int32Of_range v)]

/-- The value where the integer part is given. -/
theorem val_int32Emu_of_truncVal {v : Word} {n : Int} (h : F64.isFinite v = true) (hn : F64.truncVal v = n) :
    F64.val (int32Emu v) = toSigned32 (n % 2 ^ 32) := by
  rw [val_int32Emu h, int32Of, hn]

/-! ### The bit-level algorithm (40_int32.md R84) -/

theorem F64.mag_lt_twoPow (b : Word) : F64.mag b < F64.twoPow (53 + (F64.expField b - 1)) := by
  have hfr : F64.fraction b < 2 ^ 52 := by rw [F64.fraction_eq]; exact Nat.mod_lt _ (by decide)
  rw [F64.twoPow_eq, pow_add, F64.mag]
  split
  case isTrue h0 => rw [h0]; omega
  case isFalse => exact Nat.mul_lt_mul_of_pos_right (by omega) (Nat.two_pow_pos _)

theorem F64.twoPow_mono : Monotone F64.twoPow := by
  intro j k h
  rw [F64.twoPow_eq, F64.twoPow_eq]
  exact Nat.pow_le_pow_right (by decide) h

/-- Below 1: no integer part. -/
theorem F64.magDiv_of_expField_lt {b : Word} (h : F64.expField b < 1023) : F64.mag b / F64.oneUnits = 0 :=
  Nat.div_eq_of_lt ((F64.mag_lt_twoPow b).trans_le (F64.twoPow_mono (by omega)))

/-- From 2^52 on: the significand shifted left. -/
theorem F64.magDiv_of_le_expField {b : Word} (h : 1075 ≤ F64.expField b) :
    F64.mag b / F64.oneUnits = (2 ^ 52 + F64.fraction b) * 2 ^ (F64.expField b - 1075) := by
  have hexp : F64.expField b - 1 = (F64.expField b - 1075) + 1074 := by omega
  rw [F64.mag, if_neg (by omega), ← F64.twoPow_eq (F64.expField b - 1), hexp, F64.twoPow_add, ← mul_assoc]
  exact Nat.mul_div_cancel _ F64.oneUnits_pos

/-- Between: the significand shifted right. -/
theorem F64.magDiv_of_expField_mem {b : Word} (h : 1023 ≤ F64.expField b) (h' : F64.expField b < 1075) :
    F64.mag b / F64.oneUnits = (2 ^ 52 + F64.fraction b) / 2 ^ (1075 - F64.expField b) := by
  have hexp : 1074 = (1075 - F64.expField b) + (F64.expField b - 1) := by omega
  have hone : F64.oneUnits = 2 ^ (1075 - F64.expField b) * 2 ^ (F64.expField b - 1) := by
    rw [F64.oneUnits, F64.twoPow_eq, ← pow_add, ← hexp]
  rw [F64.mag, if_neg (by omega), hone]
  exact Nat.mul_div_mul_right _ _ (Nat.two_pow_pos _)

/-- `m` of R84, from the integer part of the magnitude: its low 32 bits, negated modulo 2^32 under a set sign. -/
def F64.low32 (b : Word) : Nat :=
  if F64.sign b then (2 ^ 32 - F64.mag b / F64.oneUnits % 2 ^ 32) % 2 ^ 32 else F64.mag b / F64.oneUnits % 2 ^ 32

/-- The shifts of R84 take the integer part of the magnitude, whatever the exponent. -/
theorem int32EmuBits_eq (b : Word) : int32EmuBits b = F64.ofInt (toSigned32 (F64.low32 b)) := by
  rw [int32EmuBits, F64.low32]
  by_cases hlt : F64.expField b < 1023
  · rw [F64.magDiv_of_expField_lt hlt]
    simp only [hlt, if_true, Nat.zero_mod]
  · by_cases hle : 1075 ≤ F64.expField b
    · rw [F64.magDiv_of_le_expField hle]
      simp only [hlt, hle, if_true, if_false]
    · rw [F64.magDiv_of_expField_mem (by omega) (by omega)]
      simp only [hlt, hle, if_false]

/-- Truncation commutes with the sign, so negating the low bits gives the low bits of the negation. -/
theorem F64.truncVal_emod_eq_low32 (b : Word) : F64.truncVal b % 2 ^ 32 = F64.low32 b := by
  rw [F64.truncVal_eq, F64.low32]
  generalize F64.mag b / F64.oneUnits = q
  split <;> omega

/-! ### The fractional remainder (40_int32.md R82) -/

theorem F64.fract_natAbs_lt (v : Word) : (F64.scaled v - F64.truncVal v * F64.oneUnits).natAbs < F64.oneUnits := by
  have hm : F64.scaled v - F64.truncVal v * F64.oneUnits = (F64.scaled v).tmod F64.oneUnits := by
    rw [Int.tmod_def, F64.truncVal, mul_comm]
  rw [hm, Int.natAbs_tmod]
  exact Nat.mod_lt _ F64.oneUnits_pos

theorem truncVal_negZero : F64.truncVal 0x8000000000000000 = 0 := by
  have hmag : F64.mag 0x8000000000000000 = 0 := by decide
  exact F64.truncVal_of_mag_lt (hmag ▸ F64.oneUnits_pos)

theorem int32Emu_negZero : int32Emu 0x8000000000000000 = 0 :=
  int32Emu_eq_zero (by decide) (by rw [truncVal_negZero]; rfl)

theorem fsub_int32Emu_negZero :
    F64.fsub 0x8000000000000000 (int32Emu 0x8000000000000000) = 0x8000000000000000 := by
  rw [int32Emu_negZero]
  decide

/-- The remainder is finite and its value is the fractional part, -0.0 included. -/
theorem scaled_fsub_int32Emu {v : Word} (h : F64.isFinite v = true)
    (hr : -2 ^ 31 ≤ F64.truncVal v ∧ F64.truncVal v < 2 ^ 31) :
    F64.isFinite (F64.fsub v (int32Emu v)) = true ∧
      F64.scaled (F64.fsub v (int32Emu v)) = F64.scaled v - F64.truncVal v * F64.oneUnits := by
  by_cases h0 : v = 0x8000000000000000
  · subst h0
    rw [fsub_int32Emu_negZero, truncVal_negZero, zero_mul, sub_zero]
    exact ⟨h, rfl⟩
  · rw [fsub_int32Emu h h0 hr]
    exact ⟨F64.isFinite_ofScaled (F64.rep_fract h), F64.scaled_ofScaled (F64.rep_fract h)⟩

/-! ### Values between 0 and an integer -/

/-- Not negative, not -0.0, and at most `k`. -/
def F64.AtMost (k : Nat) (b : Word) : Prop := F64.NonNeg b ∧ F64.mag b ≤ k * F64.oneUnits

theorem F64.AtMost.isFinite {k : Nat} {b : Word} (h : F64.AtMost k b) : F64.isFinite b = true := h.1.1

theorem F64.fadd_atMost {j k : Nat} {a b : Word} (ha : F64.AtMost j a) (hb : F64.AtMost k b) (h : j + k < 2 ^ 53) :
    F64.AtMost (j + k) (F64.fadd a b) := by
  refine F64.fadd_le ha.1 hb.1 (F64.rep_ofNat h) ?_
  rw [add_mul]
  exact Nat.add_le_add ha.2 hb.2

theorem F64.atMost_ofInt {k : Nat} (h : k < 2 ^ 53) : F64.AtMost k (F64.ofInt k) :=
  ⟨(F64.nonNeg_ofInt h).1, (F64.nonNeg_ofInt h).2.le⟩

theorem F64.AtMost.mono {j k : Nat} {b : Word} (h : F64.AtMost j b) (hjk : j ≤ k) : F64.AtMost k b :=
  ⟨h.1, h.2.trans (Nat.mul_le_mul_right _ hjk)⟩

theorem F64.fmul_atMost {j k : Nat} {a b : Word} (ha : F64.AtMost j a) (hb : F64.AtMost k b) (h : j * k < 2 ^ 53) :
    F64.AtMost (j * k) (F64.fmul a b) := by
  refine F64.fmul_le ha.1 hb.1 (F64.rep_ofNat h) ?_
  calc F64.mag a * F64.mag b ≤ j * F64.oneUnits * (k * F64.oneUnits) := Nat.mul_le_mul ha.2 hb.2
    _ = j * k * F64.oneUnits * F64.oneUnits := by ring

theorem accInv_iff_atMost (acc : Word) : AccInv acc ↔ F64.AtMost (2 ^ 32 + 2 ^ 31) acc := accInv_iff acc

/-- `Int32Emu` and its remainder on a value in range. -/
theorem int32Emu_atMost {k : Nat} {h : Word} (hh : F64.AtMost k h) (hk : k < 2 ^ 31) :
    F64.AtMost k (int32Emu h) ∧ F64.AtMost 1 (F64.fsub h (int32Emu h)) := by
  obtain ⟨-, hn, hmag, hle, hf, hfmag⟩ := int32Emu_of_nonNeg hh.1 hk hh.2
  refine ⟨⟨hn, ?_⟩, hf, ?_⟩
  · rw [hmag]
    exact Nat.mul_le_mul_right _ hle
  · rw [hfmag, one_mul]
    exact (Nat.mod_lt _ F64.oneUnits_pos).le

/-! ### The operands of MASH_STEP (41_mash.md R90, R95) -/

/-- The product `h` of `MashStep`. -/
def mashProduct (acc : Word) (cu : CodeUnit) : Word := F64.fmul mashE (F64.fadd acc (codeUnitF64 cu))

/-- The product `t` of `MashStep`: the fractional part of `h` times its integer part. -/
def mashCross (h : Word) : Word := F64.fmul (F64.fsub h (int32Emu h)) (int32Emu h)

/-- The accumulator that `MashStep` makes of `t`. -/
def mashJoin (t : Word) : Word := F64.fadd (F64.fmul two32 (F64.fsub t (int32Emu t))) (int32Emu t)

theorem mashStep_eq (acc : Word) (cu : CodeUnit) : mashStep acc cu = mashJoin (mashCross (mashProduct acc cu)) := rfl

/-- `E` is at most 1/32. -/
theorem mag_mashE_le : F64.mag mashE * 32 ≤ F64.oneUnits := by decide +kernel

theorem mashProduct_atMost {acc : Word} (hacc : AccInv acc) (cu : CodeUnit) :
    F64.AtMost (2 ^ 28) (mashProduct acc cu) := by
  have hcu : F64.AtMost (2 ^ 16) (codeUnitF64 cu) := (F64.atMost_ofInt (by omega)).mono cu.isLt.le
  have ha := (F64.fadd_atMost ((accInv_iff_atMost acc).1 hacc) hcu (by decide)).mono (k := 2 ^ 28 * 32) (by decide)
  refine F64.fmul_le ⟨by decide, by decide⟩ ha.1 (F64.rep_ofNat (by decide)) ?_
  calc F64.mag mashE * F64.mag (F64.fadd acc (codeUnitF64 cu))
      ≤ F64.mag mashE * (2 ^ 28 * 32 * F64.oneUnits) := Nat.mul_le_mul_left _ ha.2
    _ = F64.mag mashE * 32 * (2 ^ 28 * F64.oneUnits) := by ring
    _ ≤ F64.oneUnits * (2 ^ 28 * F64.oneUnits) := Nat.mul_le_mul_right _ mag_mashE_le
    _ = 2 ^ 28 * F64.oneUnits * F64.oneUnits := by ring

theorem mashCross_atMost {k : Nat} {h : Word} (hh : F64.AtMost k h) (hk : k < 2 ^ 31) : F64.AtMost k (mashCross h) := by
  obtain ⟨hn, hf⟩ := int32Emu_atMost hh hk
  have ht := F64.fmul_atMost hf hn (by omega)
  rwa [one_mul] at ht

theorem mashJoin_atMost {k : Nat} {t : Word} (ht : F64.AtMost k t) (hk : k < 2 ^ 31) :
    F64.AtMost (2 ^ 32 + k) (mashJoin t) := by
  obtain ⟨hn, hf⟩ := int32Emu_atMost ht hk
  have htwo : F64.AtMost (2 ^ 32) two32 := by
    rw [two32_eq]
    exact F64.atMost_ofInt (k := 2 ^ 32) (by decide)
  have hscaled := F64.fmul_atMost htwo hf (by decide)
  rw [mul_one] at hscaled
  exact F64.fadd_atMost hscaled hn (by omega)

/-- MASH_STEP keeps the accumulator in range (41_mash.md R95). -/
theorem accInv_mashStep {acc : Word} (h : AccInv acc) (cu : CodeUnit) : AccInv (mashStep acc cu) := by
  rw [accInv_iff_atMost, mashStep_eq]
  exact (mashJoin_atMost (mashCross_atMost (mashProduct_atMost h cu) (by decide)) (by decide)).mono (by decide)

/-- The sum of the recurrence is finite on READY registers (42_alea.md R107). -/
theorem isFinite_aleaY {e : Engine} (h : ReadyInv e) : F64.isFinite (aleaY e.s0 e.x) = true := by
  obtain ⟨⟨k, hk, hs0⟩, -, -, ⟨c, hc, hx⟩⟩ := h
  rw [hs0, hx, aleaY_exact hk hc]
  exact F64.isFinite_ofQ32 (by omega)

end Sys2Proof.Machine

namespace Sys2Proof.Proofs

open Sys2Proof.Machine

/-- Settles O37: the value is `int32Of`, which depends on the integer part modulo 2^32 only; that is 0 below 1, and from
2^84 on, where a binary64 is a multiple of 2^32. -/
theorem int32EmuLaws : Obligations.Int32EmuLaws := by
  intro v hf
  obtain ⟨hlo, hhi⟩ := int32Of_range v
  refine ⟨⟨int32Of v, hlo, hhi, val_int32Emu hf⟩, isFinite_int32Emu hf, int32Emu_ne_negZero hf,
    int32Emu_eq_ofInt_truncVal_iff hf, int32Emu_int32Emu hf, fun w hw hmod => ?_, fun hbig => ?_, fun hgt hlt => ?_,
    fun hn => int32Emu_eq_zero hf (by rw [hn]; rfl), fun hn => ?_, fun hn => ?_, fun hn => ?_⟩
  · rw [int32Emu_of_isFinite hw, int32Emu_of_isFinite hf, int32Of_congr hmod]
  · have habs : ((2 ^ 84 : Nat) : ℚ) ≤ |F64.val v| := by
      rw [Nat.cast_pow, Nat.cast_ofNat, le_abs, le_neg]
      exact hbig
    exact int32Emu_eq_zero hf (F64.truncVal_emod_of_le_mag hf ((F64.le_abs_val_iff v _).1 habs))
  · have habs : |F64.val v| < (1 : Nat) := by
      rw [Nat.cast_one, abs_lt]
      exact ⟨hgt, hlt⟩
    rw [F64.abs_val_lt_iff, one_mul] at habs
    exact int32Emu_eq_zero hf (by rw [F64.truncVal_of_mag_lt habs]; rfl)
  all_goals
    rw [val_int32Emu_of_truncVal hf hn]
    norm_num [toSigned32]

/-- Settles O27: a finite DATA completes, and RESULT takes `Int32Emu` of it. -/
theorem trunc32ReturnsTheSignedLow32Bits : Obligations.Trunc32ReturnsTheSignedLow32Bits := by
  intro s hf
  obtain ⟨hlo, hhi⟩ := int32Of_range s.data
  exact ⟨int32Of s.data, int32Emu s.data, rfl, hlo, hhi, isFinite_int32Emu hf, val_int32Emu hf,
    int32Emu_ne_negZero hf, int32Emu_of_isFinite hf, exec_trunc32_of_isFinite hf⟩

/-- Settles O38: both take the low 32 bits of the same integer part. -/
theorem bitLevelAlgorithmAgrees : Obligations.BitLevelAlgorithmAgrees := by
  intro b hf
  rw [int32EmuBits_eq, int32Emu_of_isFinite hf, int32Of, F64.truncVal_emod_eq_low32]

/-- Settles O39: the remainder in units is the exact one, which is less than a unit of 1 and representable. -/
theorem fractionalRemainderIsExact : Obligations.FractionalRemainderIsExact := by
  intro v hf hlo hhi
  obtain ⟨hfin, hscaled⟩ := scaled_fsub_int32Emu hf ⟨hlo, hhi⟩
  have hval : F64.val (F64.fsub v (int32Emu v)) = F64.val v - F64.truncVal v := by
    rw [F64.val, hscaled, F64.val]
    push_cast
    rw [sub_div, mul_div_cancel_right₀ _ (by exact_mod_cast F64.oneUnits_pos.ne')]
  have habs : |F64.val (F64.fsub v (int32Emu v))| < (1 : Nat) := by
    rw [F64.abs_val_lt_iff, one_mul, ← F64.scaled_natAbs, hscaled]
    exact F64.fract_natAbs_lt v
  rw [Nat.cast_one, abs_lt] at habs
  refine ⟨hfin, hval, habs.1, habs.2, fun hint h0 => ?_, ?_⟩
  · have hzero : F64.scaled v - F64.truncVal v * F64.oneUnits = 0 := by
      rw [← hscaled, ← F64.val_eq_zero_iff, hval, hint, sub_self]
    rw [fsub_int32Emu hf h0 ⟨hlo, hhi⟩, hzero, F64.ofScaled_zero]
  · rintro rfl
    exact fsub_int32Emu_negZero

/-- Settles O42: the accumulator stays in range, so the products of MASH_STEP are bounded; in READY the sum of the
recurrence is an integer multiple of 2^-32. -/
theorem internalTruncationOperandsAreFinite : Obligations.InternalTruncationOperandsAreFinite := by
  rintro e ⟨hacc, halea⟩
  obtain ⟨⟨hinit, -⟩, -⟩ := invariantHoldsAtReset
  have h1 : AccInv (mashStep accInit spaceUnit) := accInv_mashStep hinit spaceUnit
  have h2 := accInv_mashStep h1 spaceUnit
  have h3 := accInv_mashStep h2 spaceUnit
  refine ⟨fun cu => ?_, hacc.1, h1.1, h2.1, h3.1, fun hready => ?_⟩
  · have hh := mashProduct_atMost hacc cu
    exact ⟨mashProduct e.acc cu, mashCross (mashProduct e.acc cu), rfl, rfl, hh.isFinite,
      (mashCross_atMost hh (by decide)).isFinite⟩
  · rw [AleaInv, hready] at halea
    exact isFinite_aleaY halea

end Sys2Proof.Proofs
end

section
/-!
The statements about the Mash accumulator (41_mash.md): what MASH_INIT, MASH_STEP and MASH_OUT compute, the ranges
inside a step, the sequence that hashes a text, and the invariant of the registers that every step keeps.
-/

namespace Sys2Proof.Machine

/-! ### Values in range (41_mash.md R95) -/

theorem F64.val_ofNat {k : Nat} (h : k < 2 ^ 53) : F64.val (F64.ofInt k) = k := by
  rw [F64.val_ofInt (by simpa using h), Int.cast_natCast]

theorem F64.AtMost.val_nonneg {k : Nat} {b : Word} (h : F64.AtMost k b) : 0 ≤ F64.val b := by
  obtain ⟨⟨-, hsign⟩, -⟩ := h
  rw [F64.val_nonneg_iff, F64.scaled_nonneg hsign]
  exact Int.natCast_nonneg _

theorem F64.AtMost.val_le {k : Nat} {b : Word} (h : F64.AtMost k b) : F64.val b ≤ k := by
  obtain ⟨⟨-, hsign⟩, hmag⟩ := h
  rw [F64.val_le_iff, F64.scaled_nonneg hsign]
  exact_mod_cast hmag

/-- On a value in range `Int32Emu` is the plain truncation, which takes no wraparound. -/
theorem int32Emu_eq_trunc_of_atMost {k : Nat} {h : Word} (hh : F64.AtMost k h) (hk : k < 2 ^ 31) :
    int32Emu h = F64.ofInt (F64.truncVal h) := by
  obtain ⟨htrunc, -⟩ := int32Emu_of_nonNeg hh.1 hk hh.2
  exact htrunc

/-- A factor of at most 1 leaves the product at most the integer part: that is representable, and rounding is monotone
(41_mash.md R95, proof sketch 4). -/
theorem val_mashCross_le {k : Nat} {h : Word} (hh : F64.AtMost k h) (hk : k < 2 ^ 31) :
    F64.val (mashCross h) ≤ F64.val (int32Emu h) := by
  obtain ⟨-, hf⟩ := int32Emu_atMost hh hk
  obtain ⟨-, -, -, hq, -⟩ := int32Emu_of_nonNeg hh.1 hk hh.2
  have hn : int32Emu h = F64.ofInt (F64.mag h / F64.oneUnits : Nat) := by
    rw [int32Emu_eq_trunc_of_atMost hh hk, F64.truncVal_of_nonNeg hh.1]
  have hlt : F64.mag h / F64.oneUnits < 2 ^ 53 := by omega
  have ht : F64.AtMost (1 * (F64.mag h / F64.oneUnits)) (mashCross h) :=
    F64.fmul_atMost hf (hn ▸ F64.atMost_ofInt hlt) (by omega)
  rw [hn, F64.val_ofNat hlt]
  simpa using ht.val_le

/-! ### The hash value (41_mash.md R96) -/

theorem F64.val_ofQ32_bounds {k : Int} (h : -2 ^ 31 ≤ k ∧ k < 2 ^ 31) :
    -1 / 2 ≤ F64.val (F64.ofQ32 k) ∧ F64.val (F64.ofQ32 k) < 1 / 2 := by
  have hval := F64.val_ofQ32 (k := k) (by omega)
  have hlo : (-2 ^ 31 : ℚ) ≤ k := by exact_mod_cast h.1
  have hhi : (k : ℚ) < 2 ^ 31 := by exact_mod_cast h.2
  constructor <;> linarith

/-! ### Hashing a text (30_encoding.md R74) -/

theorem serve_issue_mashStep (cu : CodeUnit) (s : State) :
    serve (issue (.mashStep cu)) s = .next (writeAcc (mashStep s.acc cu) s) :=
  serve_issue (.mashStep cu) s

theorem writeAcc_writeAcc (v w : Word) (s : State) : writeAcc v (writeAcc w s) = writeAcc v s := rfl

/-- One MASH_STEP for each code unit folds `MashStep` over the text. -/
theorem runEvents_hashEvents (t : List CodeUnit) (s : State) :
    runEvents (hashEvents t) s = .completed (writeAcc (t.foldl mashStep s.acc) s) := by
  induction t generalizing s with
  | nil => rfl
  | cons cu t ih =>
    calc runEvents (hashEvents (cu :: t)) s
        = runEvents (hashEvents t) (writeAcc (mashStep s.acc cu) s) :=
          runEvents_cons (serve_issue_mashStep cu s) (hashEvents t)
      _ = .completed (writeAcc ((cu :: t).foldl mashStep s.acc) s) := by
          rw [ih, writeAcc_acc, writeAcc_writeAcc, List.foldl_cons]

/-! ### The invariant depends on the generator's part alone (42_alea.md R106, R107) -/

theorem engineInv_generatorPart_iff (e : Engine) : EngineInv (generatorPart e) ↔ EngineInv e := Iff.rfl

theorem engineInv_congr {e e' : Engine} (h : generatorPart e' = generatorPart e) : EngineInv e' ↔ EngineInv e := by
  rw [← engineInv_generatorPart_iff, h, engineInv_generatorPart_iff]

theorem engineInv_reset : EngineInv Engine.reset := by
  obtain ⟨hreset, -⟩ := Proofs.invariantHoldsAtReset
  exact hreset

theorem accInv_accInit : AccInv accInit := by
  obtain ⟨hacc, -⟩ := engineInv_reset
  exact hacc

/-! ### SEED_BEGIN (42_alea.md R101) -/

/-- The accumulator after `k + 1` spaces on a fresh Mash. -/
def seedBeginAcc (k : Fin 3) : Word :=
  match k with
  | 0 => mashStep accInit spaceUnit
  | 1 => mashStep (mashStep accInit spaceUnit) spaceUnit
  | 2 => mashStep (mashStep (mashStep accInit spaceUnit) spaceUnit) spaceUnit

theorem accInv_seedBeginAcc (k : Fin 3) : AccInv (seedBeginAcc k) := by
  have h0 : AccInv (seedBeginAcc 0) := accInv_mashStep accInv_accInit spaceUnit
  have h1 : AccInv (seedBeginAcc 1) := accInv_mashStep h0 spaceUnit
  match k with
  | 0 => exact h0
  | 1 => exact h1
  | 2 => exact accInv_mashStep h1 spaceUnit

theorem mashOut_seedBeginAcc (k : Fin 3) : mashOut (seedBeginAcc k) = seedBeginWord k := by
  match k with
  | 0 => decide +kernel
  | 1 => decide +kernel
  | 2 => decide +kernel

theorem readWord_writeAlea (f : Fin 3 → Word) (x : Word) (s : State) (j : Fin 3) :
    readWord j (writeAlea (f 0) (f 1) (f 2) x s).toEngine = f j := by
  match j with
  | 0 => rfl
  | 1 => rfl
  | 2 => rfl

/-! ### SEED_FOLD (42_alea.md R102, R106) -/

/-- The fold of a hash into a word of SEED_BEGIN: the word is a hash itself, so the difference is exact, and adding 1.0
to a negative one brings it into [0, 1). -/
theorem unitWord_foldWord (k : Fin 3) {acc : Word} (h : F64.isFinite acc = true) :
    UnitWord (foldWord (seedBeginWord k) (mashOut acc)) := by
  obtain ⟨hfin, -⟩ := accInv_seedBeginAcc k
  have ha := int32Of_range (seedBeginAcc k)
  have hh := int32Of_range acc
  rw [← mashOut_seedBeginAcc, mashOut_of_isFinite hfin, mashOut_of_isFinite h, foldWord_exact ha hh]
  generalize hd : int32Of (seedBeginAcc k) - int32Of acc = d
  obtain ⟨n, hn⟩ : ∃ n : Nat, (if d < 0 then d + 2 ^ 32 else d) = n := Int.eq_ofNat_of_zero_le (by split <;> omega)
  exact ⟨n, by split at hn <;> omega, by rw [hn]⟩

/-- The words below `n` are folded and the others are SEED_BEGIN's: the words' part of `SeedingInv` for `n` at most 2,
and with `n` = 3 that of `ReadyInv`. -/
def FoldedBelow (n : Nat) (e : Engine) : Prop :=
  ∀ j : Fin 3, if j.val < n then UnitWord (readWord j e) else readWord j e = seedBeginWord j

theorem seedingInv_iff (k : Fin 3) (e : Engine) : SeedingInv k e ↔ e.x = oneF64 ∧ FoldedBelow k e := Iff.rfl

theorem foldedBelow_zero {e : Engine} (h : ∀ j, readWord j e = seedBeginWord j) : FoldedBelow 0 e := by
  intro j
  rw [if_neg (Nat.not_lt_zero _)]
  exact h j

theorem FoldedBelow.unitWord {n : Nat} {e : Engine} (h : FoldedBelow n e) {j : Fin 3} (hj : j.val < n) :
    UnitWord (readWord j e) := by
  have hword := h j
  rwa [if_pos hj] at hword

theorem FoldedBelow.word_eq {n : Nat} {e : Engine} (h : FoldedBelow n e) {j : Fin 3} (hj : ¬j.val < n) :
    readWord j e = seedBeginWord j := by
  have hword := h j
  rwa [if_neg hj] at hword

theorem readWord_writeWord_same (k : Fin 3) (v : Word) (s : State) : readWord k (writeWord k v s).toEngine = v := by
  match k with
  | 0 => rfl
  | 1 => rfl
  | 2 => rfl

/-- Folding the next word moves the boundary one up. -/
theorem FoldedBelow.succ {k : Fin 3} {s : State} (h : FoldedBelow k s.toEngine) {w : Word} (hw : UnitWord w) :
    FoldedBelow (k + 1) (writeWord k w s).toEngine := by
  intro j
  rcases lt_trichotomy j k with hlt | rfl | hgt
  · rw [if_pos (by omega), readWord_writeWord_of_ne hlt.ne]
    exact h.unitWord hlt
  · rw [if_pos (by omega), readWord_writeWord_same]
    exact hw
  · rw [if_neg (by omega), readWord_writeWord_of_ne hgt.ne']
    exact h.word_eq (by omega)

theorem carryWord_oneF64 : CarryWord oneF64 := ⟨1, by decide, by decide +kernel⟩

/-- After the fold of word `k` the words have what the next phase asks: SEEDING at `k + 1`, or READY after the last. -/
theorem aleaInv_of_foldedBelow {k : Fin 3} {e : Engine} (hp : e.phase = phaseAfterFold k) (hx : e.x = oneF64)
    (h : FoldedBelow (k + 1) e) : AleaInv e := by
  rw [AleaInv, hp]
  match k with
  | 0 => exact (seedingInv_iff 1 e).2 ⟨hx, h⟩
  | 1 => exact (seedingInv_iff 2 e).2 ⟨hx, h⟩
  | 2 => exact ⟨h.unitWord (j := 0) (by decide), h.unitWord (j := 1) (by decide), h.unitWord (j := 2) (by decide),
      hx ▸ carryWord_oneF64⟩

/-! ### RANDOM and UINT32 (42_alea.md R107, R108) -/

theorem readyInv_aleaStep {s : State} (h : ReadyInv s.toEngine) : ReadyInv (aleaStep s).toEngine := by
  obtain ⟨⟨k, hk, hs0⟩, hs1, hs2, ⟨c, hc, hx⟩⟩ := h
  rw [aleaStep_exact hk hc hs0 hx]
  exact ⟨hs1, hs2, ⟨_, Nat.mod_lt _ (by decide), rfl⟩, ⟨_, by omega, rfl⟩⟩

theorem engineInv_aleaStep {s : State} (h : EngineInv s.toEngine) (hr : s.phase = .ready) :
    EngineInv (aleaStep s).toEngine := by
  obtain ⟨hacc, halea⟩ := h
  rw [AleaInv, hr] at halea
  refine ⟨hacc, ?_⟩
  rw [AleaInv, aleaStep_phase, hr]
  exact readyInv_aleaStep halea

/-! ### Every command, every event -/

theorem engineInv_writeAcc {v : Word} {s : State} (hv : AccInv v) (h : EngineInv s.toEngine) :
    EngineInv (writeAcc v s).toEngine := by
  obtain ⟨-, halea⟩ := h
  exact ⟨hv, halea⟩

/-- The state that SEED_BEGIN leaves, from an accumulator in range and its three words. -/
theorem engineInv_seedBegin {f : Fin 3 → Word} {a : Word} (ha : AccInv a) (hf : ∀ j, f j = seedBeginWord j)
    (s : State) :
    EngineInv (writePhase (.seeding 0) (writeAlea (f 0) (f 1) (f 2) oneF64 (writeAcc a s))).toEngine := by
  refine ⟨ha, (seedingInv_iff 0 _).2 ⟨rfl, foldedBelow_zero fun j => ?_⟩⟩
  rw [readWord_writePhase, readWord_writeAlea, hf]

theorem engineInv_seedFold {s : State} {k : Fin 3} (h : EngineInv s.toEngine) (hk : s.phase = .seeding k) :
    EngineInv (writePhase (phaseAfterFold k)
      (writeWord k (foldWord (readWord k s.toEngine) (mashOut s.acc)) s)).toEngine := by
  obtain ⟨hacc, halea⟩ := h
  rw [AleaInv, hk] at halea
  obtain ⟨hx, hwords⟩ := (seedingInv_iff k _).1 halea
  rw [hwords.word_eq (lt_irrefl _)]
  have hnext := hwords.succ (unitWord_foldWord k hacc.1)
  refine ⟨?_, aleaInv_of_foldedBelow (writePhase_phase _ _) ?_ hnext⟩
  · rw [writePhase_acc, writeWord_acc]
    exact hacc
  · rw [writePhase_x, writeWord_x]
    exact hx

theorem exec_keeps_engineInv {i : Instr} {s t : State} (h : EngineInv s.toEngine) (hi : exec i s = .next t) :
    EngineInv t.toEngine := by
  rcases exec_cases hi with ⟨-, rfl⟩ | ⟨cu, -, rfl⟩ | ⟨-, rfl⟩ | ⟨-, -, rfl⟩ | ⟨-, -, rfl⟩ |
    ⟨-, a0, a1, a2, a, rfl, ha, ha0, ha1, ha2⟩ | ⟨-, k, hk, rfl⟩ | ⟨-, -, rfl⟩ | ⟨-, hr, rfl⟩ | ⟨-, -, rfl⟩ |
    ⟨-, hr, rfl⟩ | ⟨-, -, rfl⟩ | ⟨-, rfl⟩
  · exact engineInv_writeAcc accInv_accInit h
  · exact engineInv_writeAcc (accInv_mashStep h.1 cu) h
  · exact (engineInv_congr rfl).2 h
  · exact (engineInv_congr rfl).2 h
  · exact (engineInv_congr rfl).2 h
  · rw [ha0, ha1, ha2, ha]
    exact engineInv_seedBegin (accInv_seedBeginAcc 2) mashOut_seedBeginAcc s
  · exact engineInv_seedFold h hk
  · exact (engineInv_congr rfl).2 h
  · exact (engineInv_congr rfl).2 (engineInv_aleaStep h hr)
  · exact (engineInv_congr rfl).2 h
  · exact (engineInv_congr rfl).2 (engineInv_aleaStep h hr)
  · exact (engineInv_congr rfl).2 h
  · exact (engineInv_congr rfl).2 h

theorem serve_keeps_engineInv {ev : HostEvent} {s t : State} (h : EngineInv s.toEngine) (hs : serve ev s = .next t) :
    EngineInv t.toEngine := by
  rcases serve_cases hs with ⟨r, -, rfl⟩ | ⟨bytes, -, -, rfl⟩ | ⟨bytes, i, -, -, -, hi⟩ |
    ⟨bytes, c, -, -, -, rfl⟩ | ⟨-, rfl⟩ | ⟨v, -, rfl⟩
  · exact (engineInv_congr rfl).2 h
  · exact (engineInv_congr rfl).2 h
  · exact exec_keeps_engineInv h hi
  · exact (engineInv_congr rfl).2 h
  · exact engineInv_reset
  · exact engineInv_reset

end Sys2Proof.Machine

namespace Sys2Proof.Proofs

open Sys2Proof.Machine

/-- Settles O43: the invariant speaks of the generator's part only; the commands that write it keep ACC in range,
give or fold SEED_BEGIN's words exactly, and make the integer step in READY. -/
theorem everyStepKeepsTheInvariant : Obligations.EveryStepKeepsTheInvariant := by
  intro s t h hstep
  rcases step_cases hstep with ⟨-, rfl⟩ | ⟨ev, rest, -, hs⟩
  · exact h
  · exact serve_keeps_engineInv (s := withPending rest s) h hs

/-- Settles O25: `h` is at most 2^28, since `E` is at most 1/32, so neither truncation wraps; the remainder by the first
is the exact fractional part, and the product of it and the integer part is at most the latter. -/
theorem mashStepStaysInRange : Obligations.MashStepStaysInRange := by
  intro s cu hacc
  have hh := mashProduct_atMost hacc cu
  have hnext := accInv_mashStep hacc cu
  rw [mashStep_eq] at hnext
  have hexec : exec (.mashStep cu) s =
      .next { s with acc := mashJoin (mashCross (mashProduct s.acc cu)) } := rfl
  generalize hprod : mashProduct s.acc cu = h at hh hnext hexec
  obtain ⟨-, hf⟩ := int32Emu_atMost hh (by decide)
  have ht := mashCross_atMost hh (by decide)
  have htrunc := int32Emu_eq_trunc_of_atMost hh (by decide)
  obtain ⟨hlo, hhi⟩ := (int32Emu_eq_ofInt_truncVal_iff hh.isFinite).1 htrunc
  obtain ⟨hfin, hfract, -, hlt, -⟩ := fractionalRemainderIsExact h hh.isFinite hlo hhi
  exact ⟨h, int32Emu h, F64.fsub h (int32Emu h), mashCross h, int32Emu (mashCross h), mashJoin (mashCross h),
    hprod.symm, hh.isFinite, hh.val_nonneg, hh.val_le.trans_lt (by norm_num),
    rfl, htrunc, rfl, hfin, hf.val_nonneg, hlt, hfract,
    rfl, ht.isFinite, ht.val_nonneg, val_mashCross_le hh (by decide),
    rfl, int32Emu_eq_trunc_of_atMost ht (by decide), rfl, hnext, hexec⟩

/-- Settles O26: the truncation is an integer of 32 bits, which scaling by 2^-32 leaves exact. -/
theorem mashOutReturnsTheScaledLow32Bits : Obligations.MashOutReturnsTheScaledLow32Bits := by
  intro s hf
  have hout := mashOut_of_isFinite hf
  have hrange := int32Of_range s.acc
  obtain ⟨hlo, hhi⟩ := F64.val_ofQ32_bounds hrange
  have habs := int32Of_natAbs_lt s.acc
  refine ⟨int32Of s.acc, mashOut s.acc, rfl, hrange.1, hrange.2, rfl, hout, ?_⟩
  rw [hout]
  refine ⟨F64.isFinite_ofQ32 habs, F64.val_ofQ32 habs, F64.ofScaled_ne_negZero _, hlo, hhi, ?_⟩
  rw [← hout]
  rfl

/-- Settles O48: the text is folded into ACC, and MASH_OUT then reads that ACC. -/
theorem mashSequenceIsMashHash : Obligations.MashSequenceIsMashHash := by
  intro t s
  calc runEvents (hashEvents t ++ [issue .mashOut]) s
      = runEvents [issue .mashOut] (writeAcc (t.foldl mashStep s.acc) s) :=
        runEvents_append (runEvents_hashEvents t s) _
    _ = runEvents [] (writeResult (mashHash s.acc t).2 (writeAcc (mashHash s.acc t).1 s)) :=
        runEvents_cons (serve_issue .mashOut _) _

/-- Settles O23: the accumulator is ACC_INIT. -/
theorem mashInitSetsAccInit : Obligations.MashInitSetsAccInit :=
  fun _ => ⟨accInit, val_accInit, rfl, rfl⟩

/-- Settles O24: the model's `mashStep` is the seven lines of R90. -/
theorem mashStepComputesR90 : Obligations.MashStepComputesR90 :=
  fun _ _ => ⟨_, _, _, _, _, _, _, rfl, rfl, rfl, rfl, rfl, rfl, rfl, rfl⟩

end Sys2Proof.Proofs
end

section
/-!
The statements about the Alea generator (42_alea.md): SEED_BEGIN and SEED_FOLD, the integer multiply-with-carry step of
RANDOM and UINT32, the ranges of the outputs, the SEED sequence, and that the registers determine a run.
-/

namespace Sys2Proof.Machine

/-! ### Writes of several registers, as one update of the state -/

theorem writeResult_writeAlea (a b c d r : Word) (s : State) : writeResult r (writeAlea a b c d s) =
    { s with s0 := a, s1 := b, s2 := c, x := d, result := r } := rfl

theorem writePhase_writeAlea_writeAcc (p : Phase) (a b c d v : Word) (s : State) :
    writePhase p (writeAlea a b c d (writeAcc v s)) =
      { s with acc := v, s0 := a, s1 := b, s2 := c, x := d, phase := p } := rfl

/-- What a fold of the word `k` writes. -/
theorem writePhase_writeWord (k : Fin 3) (v : Word) (s : State) : writePhase (phaseAfterFold k) (writeWord k v s) =
    if k = 0 then { s with s0 := v, phase := .seeding 1 }
    else if k = 1 then { s with s1 := v, phase := .seeding 2 }
    else { s with s2 := v, phase := .ready } := by
  match k with
  | 0 => rfl
  | 1 => rfl
  | 2 => rfl

/-! ### SEED_BEGIN (42_alea.md R101) -/

/-- The accumulator of R101's corner cases: three spaces on a fresh Mash. -/
theorem seedBeginAcc_two : seedBeginAcc 2 = 0x41ED5DC288600000 := by decide +kernel

/-- The state that SEED_BEGIN leaves. -/
def seedBegun (s : State) : State :=
  writePhase (.seeding 0) (writeAlea (seedBeginWord 0) (seedBeginWord 1) (seedBeginWord 2) oneF64
    (writeAcc (seedBeginAcc 2) s))

theorem exec_seedBegin (s : State) : exec .seedBegin s = .next (seedBegun s) := by
  rw [seedBegun, ← mashOut_seedBeginAcc, ← mashOut_seedBeginAcc, ← mashOut_seedBeginAcc]
  rfl

theorem seedBegun_eq (s : State) : seedBegun s = { s with
    acc := seedBeginAcc 2, s0 := seedBeginWord 0, s1 := seedBeginWord 1, s2 := seedBeginWord 2, x := oneF64,
    phase := .seeding 0 } :=
  writePhase_writeAlea_writeAcc _ _ _ _ _ _ s

theorem engineInv_seedBegun (s : State) : EngineInv (seedBegun s).toEngine :=
  engineInv_seedBegin (f := seedBeginWord) (accInv_seedBeginAcc 2) (fun _ => rfl) s

/-! ### Multiples of 2^-32 (42_alea.md R108) -/

theorem fmul_ofQ32_aleaA {k : Nat} (h : k < 2 ^ 32) :
    F64.fmul (F64.ofQ32 k) aleaA = F64.ofQ32 (2091639 * k : Nat) := by
  rw [aleaA_eq, F64.fmul_ofQ32_ofInt (by omega) (by decide) (by omega) (.inr (by omega)), mul_comm, Nat.cast_mul]
  rfl

theorem int32Emu_ofQ32 {n : Nat} (h : n < 2 ^ 53) : int32Emu (F64.ofQ32 n) = F64.ofInt (n / 2 ^ 32 : Nat) := by
  rw [int32Emu_of_isFinite (F64.isFinite_ofQ32 (by omega)), int32Of_ofQ32 h]

/-- The fractional remainder of `n * 2^-32` is the low 32 bits of `n`. -/
theorem fsub_ofQ32_floor {n : Nat} (h : n < 2 ^ 53) :
    F64.fsub (F64.ofQ32 n) (F64.ofInt (n / 2 ^ 32 : Nat)) = F64.ofQ32 (n % 2 ^ 32 : Nat) := by
  rw [F64.ofInt_eq_ofQ32, F64.fsub_ofQ32 (by omega) (by omega)]
  congr 1
  omega

theorem F64.val_ofQ32_nonneg {n : Nat} (h : n < 2 ^ 53) : 0 ≤ F64.val (F64.ofQ32 n) := by
  rw [F64.val_nonneg_iff, F64.scaled_ofQ32 (by omega)]
  positivity

theorem F64.val_ofQ32_lt {n K : Nat} (h : n < 2 ^ 53) (hK : n < K * 2 ^ 32) : F64.val (F64.ofQ32 n) < K := by
  have hval := F64.val_ofQ32 (k := n) (by omega)
  have hlt : (n : ℚ) < K * 2 ^ 32 := by exact_mod_cast hK
  rw [Int.cast_natCast] at hval
  linarith

theorem zextResult_ofNat {m : Nat} (h : m < 2 ^ 32) : zextResult (BitVec.ofNat 32 m) = BitVec.ofNat 64 m := by
  apply BitVec.eq_of_toNat_eq
  simp [zextResult]
  omega

/-! ### RANDOM and UINT32 on READY words (42_alea.md R104, R105, R108) -/

section ReadyWords

variable {s : State} {k c : Nat} (hr : s.phase = .ready) (hk : k < 2 ^ 32) (hc : c ≤ 2091639)
  (hs0 : s.s0 = F64.ofQ32 k) (hx : s.x = F64.ofInt c)

include hr hk hc hs0 hx

theorem exec_random_exact : exec .random s = .next { s with
    s0 := s.s1, s1 := s.s2, s2 := F64.ofQ32 ((2091639 * k + c) % 2 ^ 32 : Nat),
    x := F64.ofInt ((2091639 * k + c) / 2 ^ 32 : Nat), result := F64.ofQ32 ((2091639 * k + c) % 2 ^ 32 : Nat) } := by
  rw [exec_random_of_ready hr, aleaStep_exact hk hc hs0 hx, writeAlea_s2, writeResult_writeAlea]

theorem exec_uint32_exact : exec .uint32 s = .next { s with
    s0 := s.s1, s1 := s.s2, s2 := F64.ofQ32 ((2091639 * k + c) % 2 ^ 32 : Nat),
    x := F64.ofInt ((2091639 * k + c) / 2 ^ 32 : Nat), result := BitVec.ofNat 64 ((2091639 * k + c) % 2 ^ 32) } := by
  have hm : (2091639 * k + c) % 2 ^ 32 < 2 ^ 32 := Nat.mod_lt _ (by decide)
  rw [exec_uint32_of_ready hr, aleaStep_exact hk hc hs0 hx, writeAlea_s2, uint32Of_ofQ32 hm, zextResult_ofNat hm,
    writeResult_writeAlea]

end ReadyWords

/-! ### Plain truncation (42_alea.md R114) -/

theorem plainStep_eq_aleaStep {s : State}
    (h : int32Emu (aleaY s.s0 s.x) = F64.ofInt (F64.truncVal (aleaY s.s0 s.x))) : plainStep s = aleaStep s := by
  rw [aleaStep, h]
  rfl

/-! ### The SEED sequence (42_alea.md R110) -/

/-- The state after hashing the text `t` and folding the hash into the word `k`. -/
def foldText (k : Fin 3) (t : List CodeUnit) (s : State) : State :=
  writePhase (phaseAfterFold k) (writeWord k (foldWord (readWord k s.toEngine) (mashHash s.acc t).2)
    (writeAcc (mashHash s.acc t).1 s))

theorem readWord_writeAcc (j : Fin 3) (v : Word) (s : State) :
    readWord j (writeAcc v s).toEngine = readWord j s.toEngine :=
  readWord_congr rfl rfl rfl j

/-- In SEEDING the accesses of one fold of a text lead to `foldText`. -/
theorem runEvents_foldText {k : Fin 3} {s : State} (hp : s.phase = .seeding k) (t : List CodeUnit)
    (rest : List HostEvent) :
    runEvents (hashEvents t ++ issue .seedFold :: rest) s = runEvents rest (foldText k t s) := by
  have hfold : exec .seedFold (writeAcc (mashHash s.acc t).1 s) = .next (foldText k t s) := by
    rw [exec_seedFold_of_seeding (s := writeAcc (mashHash s.acc t).1 s) hp, readWord_writeAcc]
    rfl
  calc runEvents (hashEvents t ++ issue .seedFold :: rest) s
      = runEvents (issue .seedFold :: rest) (writeAcc (mashHash s.acc t).1 s) :=
        runEvents_append (runEvents_hashEvents t s) _
    _ = runEvents rest (foldText k t s) := runEvents_cons ((serve_issue .seedFold _).trans hfold) rest

theorem accInv_mashHash {acc : Word} (h : AccInv acc) (t : List CodeUnit) : AccInv (mashHash acc t).1 :=
  List.foldlRecOn t mashStep h fun _ hacc cu _ => accInv_mashStep hacc cu

theorem engineInv_foldText {k : Fin 3} {s : State} (h : EngineInv s.toEngine) (hp : s.phase = .seeding k)
    (t : List CodeUnit) : EngineInv (foldText k t s).toEngine := by
  have hfold := engineInv_seedFold (k := k) (engineInv_writeAcc (accInv_mashHash h.1 t) h) hp
  rwa [readWord_writeAcc] at hfold

/-- The state that SEED of the text `t` leaves. -/
def seeded (t : List CodeUnit) (s : State) : State :=
  foldText 2 t (foldText 1 t (foldText 0 t (seedBegun s)))

theorem runEvents_seed (t : List CodeUnit) (s : State) :
    runEvents (stmtEvents (.seed t)) s = .completed (seeded t s) := by
  have hbegin : serve (issue .seedBegin) s = .next (seedBegun s) :=
    (serve_issue .seedBegin s).trans (exec_seedBegin s)
  rw [stmtEvents, runEvents_cons hbegin, runEvents_foldText (k := 0) rfl, runEvents_foldText (k := 1) rfl,
    runEvents_foldText (k := 2) rfl]
  rfl

theorem readyInv_seeded (t : List CodeUnit) (s : State) : ReadyInv (seeded t s).toEngine := by
  have h0 := engineInv_foldText (k := 0) (engineInv_seedBegun s) rfl t
  have h1 := engineInv_foldText (k := 1) h0 rfl t
  obtain ⟨-, halea⟩ := engineInv_foldText (k := 2) h1 rfl t
  exact halea

/-- DATA, RESULT, ERR, the fault mark and the host's side of the run are as before. -/
def SameHostSide (s t : State) : Prop :=
  t.data = s.data ∧ t.result = s.result ∧ t.err = s.err ∧ t.faultMark = s.faultMark ∧ SameRun s t

theorem SameHostSide.trans {s t u : State} (h : SameHostSide s t) (h' : SameHostSide t u) : SameHostSide s u := by
  obtain ⟨hdata, hresult, herr, hmark, hpending, hreads, hacks, hcount⟩ := h
  obtain ⟨hdata', hresult', herr', hmark', hpending', hreads', hacks', hcount'⟩ := h'
  exact ⟨hdata'.trans hdata, hresult'.trans hresult, herr'.trans herr, hmark'.trans hmark,
    hpending'.trans hpending, hreads'.trans hreads, hacks'.trans hacks, hcount'.trans hcount⟩

theorem sameHostSide_seedBegun (s : State) : SameHostSide s (seedBegun s) := by
  simp [seedBegun, SameHostSide, SameRun]

theorem sameHostSide_foldText (k : Fin 3) (t : List CodeUnit) (s : State) : SameHostSide s (foldText k t s) := by
  simp [foldText, SameHostSide, SameRun]

theorem sameHostSide_seeded (t : List CodeUnit) (s : State) : SameHostSide s (seeded t s) :=
  (((sameHostSide_seedBegun s).trans (sameHostSide_foldText 0 t _)).trans (sameHostSide_foldText 1 t _)).trans
    (sameHostSide_foldText 2 t _)

@[simp] theorem seedBegun_acc (s : State) : (seedBegun s).acc = seedBeginAcc 2 := by
  rw [seedBegun, writePhase_acc, writeAlea_acc, writeAcc_acc]

@[simp] theorem readWord_seedBegun (j : Fin 3) (s : State) :
    readWord j (seedBegun s).toEngine = seedBeginWord j := by
  rw [seedBegun, readWord_writePhase, readWord_writeAlea seedBeginWord]

@[simp] theorem foldText_acc (k : Fin 3) (t : List CodeUnit) (s : State) :
    (foldText k t s).acc = (mashHash s.acc t).1 := by
  simp [foldText]

@[simp] theorem readWord_foldText_same (k : Fin 3) (t : List CodeUnit) (s : State) :
    readWord k (foldText k t s).toEngine = foldWord (readWord k s.toEngine) (mashHash s.acc t).2 := by
  rw [foldText, readWord_writePhase, readWord_writeWord_same]

theorem readWord_foldText_of_ne {j k : Fin 3} (h : j ≠ k) (t : List CodeUnit) (s : State) :
    readWord j (foldText k t s).toEngine = readWord j s.toEngine := by
  rw [foldText, readWord_writePhase, readWord_writeWord_of_ne h, readWord_writeAcc]

@[simp] theorem foldText_x (k : Fin 3) (t : List CodeUnit) (s : State) : (foldText k t s).x = s.x := by
  simp [foldText]

theorem mashHash_singleton (acc : Word) (cu : CodeUnit) :
    mashHash acc [cu] = (mashStep acc cu, mashOut (mashStep acc cu)) := rfl

/-- The three spaces of `AleaNew` on its fresh Mash are those of SEED_BEGIN. -/
theorem mashHash_spaces : mashHash accInit [spaceUnit] = (seedBeginAcc 0, seedBeginWord 0) ∧
    mashHash (seedBeginAcc 0) [spaceUnit] = (seedBeginAcc 1, seedBeginWord 1) ∧
    mashHash (seedBeginAcc 1) [spaceUnit] = (seedBeginAcc 2, seedBeginWord 2) := by
  simp only [mashHash_singleton, ← mashOut_seedBeginAcc]
  exact ⟨rfl, rfl, rfl⟩

theorem seeded_x (t : List CodeUnit) (s : State) : (seeded t s).x = oneF64 := by
  rw [seeded, foldText_x, foldText_x, foldText_x, seedBegun, writePhase_x, writeAlea_x]

/-- SEED leaves the words that `AleaNew` defines. -/
theorem readWord_seeded (t : List CodeUnit) (s : State) :
    readWord 0 (seeded t s).toEngine = (aleaNew t).s0 ∧ readWord 1 (seeded t s).toEngine = (aleaNew t).s1 ∧
      readWord 2 (seeded t s).toEngine = (aleaNew t).s2 := by
  obtain ⟨h0, h1, h2⟩ := mashHash_spaces
  simp only [seeded, aleaNew, h0, h1, h2]
  refine ⟨?_, ?_, ?_⟩
  · rw [readWord_foldText_of_ne (by decide), readWord_foldText_of_ne (by decide)]
    simp
  · rw [readWord_foldText_of_ne (by decide), readWord_foldText_same, readWord_foldText_of_ne (by decide)]
    simp
  · rw [readWord_foldText_same, readWord_foldText_of_ne (by decide), readWord_foldText_of_ne (by decide)]
    simp

/-! ### The registers determine a run (42_alea.md R112) -/

/-- From the states `s` and `s'` on, `t` and `t'` hold the same registers and have read the same values `rs`. -/
structure AgreeSince (s s' t t' : State) (rs : List Word) : Prop where
  engine : t.toEngine = t'.toEngine
  reads : t.reads = s.reads ++ rs
  reads' : t'.reads = s'.reads ++ rs

theorem AgreeSince.refl {s s' : State} (h : s.toEngine = s'.toEngine) : AgreeSince s s' s s' [] :=
  ⟨h, (List.append_nil _).symm, (List.append_nil _).symm⟩

theorem AgreeSince.trans {s s' t t' u u' : State} {rs rs' : List Word} (h : AgreeSince s s' t t' rs)
    (h' : AgreeSince t t' u u' rs') : AgreeSince s s' u u' (rs ++ rs') :=
  ⟨h'.engine, by rw [h'.reads, h.reads, List.append_assoc], by rw [h'.reads', h.reads', List.append_assoc]⟩

/-- Both outcomes are next states, with the same registers. -/
def SameEngineNext (o o' : Host.Outcome State Fault Refusal) : Prop :=
  ∃ t t', o = .next t ∧ o' = .next t' ∧ t.toEngine = t'.toEngine

theorem raiseError_toEngine_congr {s s' : State} (h : s.toEngine = s'.toEngine) (c : ErrCode) :
    (raiseError c s).toEngine = (raiseError c s').toEngine := by
  simp only [raiseError, h]

theorem require_sameEngineNext {done done' s s' : State} (hd : done.toEngine = done'.toEngine)
    (hs : s.toEngine = s'.toEngine) (ok : Bool) (c : ErrCode) :
    SameEngineNext (require ok c done s) (require ok c done' s') := by
  cases ok with
  | true => exact ⟨_, _, rfl, rfl, hd⟩
  | false => exact ⟨_, _, rfl, rfl, raiseError_toEngine_congr hs c⟩

/-- The writes of a fold leave the same registers where there were the same before. -/
theorem writePhase_writeWord_toEngine_congr {s s' : State} (h : s.toEngine = s'.toEngine) (k : Fin 3) (v : Word)
    (p : Phase) : (writePhase p (writeWord k v s)).toEngine = (writePhase p (writeWord k v s')).toEngine := by
  fin_cases k <;> simp only [writePhase, writeWord, h]

theorem exec_seedFold_sameEngineNext {s s' : State} (h : s.toEngine = s'.toEngine) :
    SameEngineNext (exec .seedFold s) (exec .seedFold s') := by
  by_cases hp : ∃ k, s.phase = .seeding k
  · obtain ⟨k, hk⟩ := hp
    rw [exec_seedFold_of_seeding hk, exec_seedFold_of_seeding (h ▸ hk), h]
    exact ⟨_, _, rfl, rfl, writePhase_writeWord_toEngine_congr h k _ _⟩
  · have hs := not_exists.1 hp
    rw [exec_seedFold_of_not_seeding hs, exec_seedFold_of_not_seeding (h ▸ hs)]
    exact ⟨_, _, rfl, rfl, raiseError_toEngine_congr h _⟩

/-- What a command does to the registers depends on the registers alone. -/
theorem exec_sameEngineNext (i : Instr) {s s' : State} (h : s.toEngine = s'.toEngine) :
    SameEngineNext (exec i s) (exec i s') := by
  obtain ⟨e, pending, reads, faultMark, abandonedAcks, freeCount⟩ := s
  obtain ⟨e', pending', reads', faultMark', abandonedAcks', freeCount'⟩ := s'
  obtain rfl : e = e' := h
  cases i with
  | trunc32 => exact require_sameEngineNext (by rfl) (by rfl) _ _
  | random => exact require_sameEngineNext (by rfl) (by rfl) _ _
  | uint32 => exact require_sameEngineNext (by rfl) (by rfl) _ _
  | seedFold => exact exec_seedFold_sameEngineNext rfl
  | _ => exact ⟨_, _, rfl, rfl, rfl⟩

theorem executeCmd_agree (v : Word) {s s' : State} (h : s.toEngine = s'.toEngine) :
    ∃ t t', executeCmd v s = .next t ∧ executeCmd v s' = .next t' ∧ AgreeSince s s' t t' [] := by
  cases hd : decodeCmd v with
  | error c =>
    exact ⟨_, _, executeCmd_error hd s, executeCmd_error hd s', raiseError_toEngine_congr h _, by simp, by simp⟩
  | ok i =>
    obtain ⟨t, t', ht, ht', he⟩ := exec_sameEngineNext i h
    obtain ⟨-, hreads, -⟩ := exec_sameRun ht
    obtain ⟨-, hreads', -⟩ := exec_sameRun ht'
    exact ⟨t, t', (executeCmd_ok hd s).trans ht, (executeCmd_ok hd s').trans ht', he, by simp [hreads],
      by simp [hreads']⟩

/-- The service of an event in `s` and in `s'`: both have a step, and it keeps them in agreement, or neither has one. -/
def ServedAlike (ev : HostEvent) (s s' : State) : Prop :=
  (∃ t t' rs, serve ev s = .next t ∧ serve ev s' = .next t' ∧ AgreeSince s s' t t' rs) ∨
  (∃ f, serve ev s = .fault f ∧ serve ev s' = .fault f)

/-- What an event does to the registers, and what it reads, depends on the registers alone. -/
theorem servedAlike (ev : HostEvent) {s s' : State} (h : s.toEngine = s'.toEngine) : ServedAlike ev s s' := by
  cases ev with
  | read off width =>
    cases hr : accessReg off width with
    | error c => exact .inr ⟨_, by rw [serve, serveRead, hr], by rw [serve, serveRead, hr]⟩
    | ok r =>
      obtain ⟨rfl, rfl⟩ := accessReg_ok hr
      exact .inl ⟨_, _, [_], serve_read r s, serve_read r s', h, rfl, by rw [h]; rfl⟩
  | write off bytes =>
    cases hr : accessReg off bytes.length with
    | error c => exact .inr ⟨_, by rw [serve, serveWrite, hr], by rw [serve, serveWrite, hr]⟩
    | ok r =>
      cases r with
      | cmd =>
        obtain ⟨t, t', ht, ht', ha⟩ := executeCmd_agree (wordOfBytes bytes) h
        exact .inl ⟨t, t', [], by rw [serve, serveWrite, hr, ← ht], by rw [serve, serveWrite, hr, ← ht'], ha⟩
      | data =>
        refine .inl ⟨_, _, [], by rw [serve, serveWrite, hr], by rw [serve, serveWrite, hr], ?_, by simp, by simp⟩
        simp only [writeData, h]
      | _ => exact .inr ⟨_, by rw [serve, serveWrite, hr], by rw [serve, serveWrite, hr]⟩
  | reset => exact .inl ⟨_, _, [], rfl, rfl, rfl, by simp, by simp⟩
  | resetDuringCmd v => exact .inl ⟨_, _, [], rfl, rfl, rfl, by simp, by simp⟩

theorem runEvents_stop {ev : HostEvent} {s : State} {f : Fault} (h : serve ev s = .fault f) (evs : List HostEvent) :
    runEvents (ev :: evs) s = .stopped s f := by
  rw [runEvents, h]

end Sys2Proof.Machine

namespace Sys2Proof.Proofs

open Sys2Proof.Machine

/-- Settles O28: the three accumulators and their hashes are evaluated. -/
theorem seedBeginGivesTheBaselineValues : Obligations.SeedBeginGivesTheBaselineValues := by
  intro s
  rw [exec_seedBegin, seedBegun_eq, seedBeginAcc_two]
  rfl

/-- Settles O29: the hash is a multiple of 2^-32 as the word is, so the fold is exact; SIDX selects the register. -/
theorem seedFoldSubtractsExactly : Obligations.SeedFoldSubtractsExactly := by
  intro s k a hp hlo hhi hword hacc
  refine ⟨a - int32Of s.acc, _, rfl, rfl, ?_⟩
  rw [exec_seedFold_of_seeding hp, hword, mashOut_of_isFinite hacc, foldWord_exact ⟨hlo, hhi⟩ (int32Of_range s.acc),
    writePhase_writeWord]

/-- Settles O30: every intermediate is a multiple of 2^-32 of at most 53 bits. -/
theorem randomIsTheIntegerStep : Obligations.RandomIsTheIntegerStep := by
  intro s k0 k1 k2 c hr hk0 _ _ hc hs0 hs1 hs2 hx
  have hn : 2091639 * k0 + c < 2 ^ 53 := by omega
  have hp : F64.fmul s.s0 aleaA = F64.ofQ32 (2091639 * k0 : Nat) := by rw [hs0, fmul_ofQ32_aleaA hk0]
  have hq : F64.fmul s.x twoM32 = F64.ofQ32 c := by rw [hx, fmul_ofInt_twoM32 (by omega)]
  have hy : aleaY s.s0 s.x = F64.ofQ32 (2091639 * k0 + c : Nat) := by rw [hs0, hx, aleaY_exact hk0 hc]
  have hx' : int32Emu (aleaY s.s0 s.x) = F64.ofInt ((2091639 * k0 + c) / 2 ^ 32 : Nat) := by rw [hy, int32Emu_ofQ32 hn]
  have hexec := exec_random_exact hr hk0 hc hs0 hx
  rw [hs1, hs2] at hexec
  refine ⟨2091639 * k0 + c, F64.fmul s.s0 aleaA, F64.fmul s.x twoM32, aleaY s.s0 s.x, int32Emu (aleaY s.s0 s.x),
    F64.fsub (aleaY s.s0 s.x) (int32Emu (aleaY s.s0 s.x)), rfl, hn, rfl, hp, rfl, hq, rfl, hy, ?_, rfl, hx', rfl, ?_,
    by omega, hexec⟩
  · rw [hy, F64.val_ofQ32 (by omega), Int.cast_natCast]
  · rw [hx', hy, fsub_ofQ32_floor hn]

/-- Settles O31: the same step as RANDOM's, and the new word times 2^32 is an integer of 32 bits. -/
theorem uint32IsTheIntegerStep : Obligations.Uint32IsTheIntegerStep := by
  intro s k0 k1 k2 c hr hk0 _ _ hc hs0 hs1 hs2 hx
  have hexec := exec_uint32_exact hr hk0 hc hs0 hx
  rw [hs1, hs2] at hexec
  exact ⟨_, rfl, hexec⟩

/-- Settles O32: both results are the low 32 bits of one integer, scaled by 2^-32 in RANDOM's. -/
theorem outputRanges : Obligations.OutputRanges := by
  rintro s hr ⟨⟨k, hk, hs0⟩, -, -, ⟨c, hc, hx⟩⟩
  refine ⟨_, _, exec_random_exact hr hk hc hs0 hx, exec_uint32_exact hr hk hc hs0 hx, ?_⟩
  have hm : (2091639 * k + c) % 2 ^ 32 < 2 ^ 32 := Nat.mod_lt _ (by decide)
  generalize (2091639 * k + c) % 2 ^ 32 = m at hm
  have hval := F64.val_ofQ32 (k := m) (by omega)
  have hnat : (BitVec.ofNat 64 m).toNat = m := Nat.mod_eq_of_lt (by omega)
  refine ⟨F64.isFinite_ofQ32 (by omega), F64.ofScaled_ne_negZero _, F64.val_ofQ32_nonneg (by omega), ?_, ?_, ?_⟩
  · exact_mod_cast F64.val_ofQ32_lt (K := 1) (by omega) (by omega)
  · rwa [hnat]
  · rw [hval, hnat, Int.cast_natCast]

/-- Settles O46: the sum is n * 2^-32 for an n below 2^53, so its integer part needs no wraparound. -/
theorem plainTruncationGivesTheSameStep : Obligations.PlainTruncationGivesTheSameStep := by
  rintro s ⟨⟨k, hk, hs0⟩, -, -, ⟨c, hc, hx⟩⟩
  have hy : aleaY s.s0 s.x = F64.ofQ32 (2091639 * k + c : Nat) := by rw [hs0, hx, aleaY_exact hk hc]
  have hn : 2091639 * k + c < 2 ^ 53 := by omega
  have hplain : int32Emu (aleaY s.s0 s.x) = F64.ofInt (F64.truncVal (aleaY s.s0 s.x)) := by
    rw [hy, int32Emu_ofQ32 hn, F64.truncVal_ofQ32 (by omega)]
    rfl
  refine ⟨?_, ?_, ?_, plainStep_eq_aleaStep hplain⟩ <;> rw [hy]
  · exact F64.isFinite_ofQ32 (by omega)
  · exact F64.val_ofQ32_nonneg hn
  · exact_mod_cast F64.val_ofQ32_lt (K := 2 ^ 31) hn (by omega)

/-- Settles O33: both commands are the step of the recurrence and a write of RESULT. -/
theorem generationRotatesTheWords : Obligations.GenerationRotatesTheWords :=
  fun _ hr => ⟨_, _, exec_random_of_ready hr, exec_uint32_of_ready hr, rfl, rfl, rfl, rfl, rfl⟩

/-- Settles O47: event by event, the two states stay in agreement; at the first event with no step both runs stop. -/
theorem runsAreDeterminedByTheRegisters : Obligations.RunsAreDeterminedByTheRegisters := by
  intro evs
  induction evs with
  | nil =>
    intro s s' h
    have hall := AgreeSince.refl h
    exact ⟨[], hall.engine, hall.reads, hall.reads', by simp [runEvents]⟩
  | cons ev evs ih =>
    intro s s' h
    rcases servedAlike ev h with ⟨t, t', rs, ht, ht', hstep⟩ | ⟨f, hf, hf'⟩
    · obtain ⟨rs', hengine, hreads, hreads', hends⟩ := ih t t' hstep.engine
      rw [runEvents_cons ht, runEvents_cons ht']
      have hall := hstep.trans ⟨hengine, hreads, hreads'⟩
      exact ⟨rs ++ rs', hall.engine, hall.reads, hall.reads', hends⟩
    · rw [runEvents_stop hf, runEvents_stop hf']
      have hall := AgreeSince.refl h
      exact ⟨[], hall.engine, hall.reads, hall.reads', by simp⟩

/-- Settles O49: SEED_BEGIN leaves the hashes of `AleaNew`'s spaces, each fold hashes the text on the same Mash, and the
invariant of the registers gives the ranges. -/
theorem seedSequenceIsAleaNew : Obligations.SeedSequenceIsAleaNew := by
  intro t s
  obtain ⟨h0, h1, h2⟩ := readWord_seeded t s
  have hx := seeded_x t s
  exact ⟨seeded t s, runEvents_seed t s, h0, h1, h2, hx, rfl, readyInv_seeded t s, hx ▸ val_oneF64,
    sameHostSide_seeded t s⟩

end Sys2Proof.Proofs
end

section
/-!
The statements about the system command (43_system.md): CLRERR clears ERR and nothing else, and only it and the two
reset events lower ERR.
-/

namespace Sys2Proof.Machine

/-! ### ERR keeps its first code (43_system.md R120, 60_exceptions.md R127) -/

theorem raiseError_err_of_some {s : State} {c : ErrCode} (h : s.err = some c) (d : ErrCode) :
    (raiseError d s).err = some c := by
  rw [raiseError_err, h, if_neg (Option.some_ne_none c)]

/-- No command but CLRERR changes a recorded error: it writes no ERR, or it raises a second error. -/
theorem exec_keeps_err {i : Instr} {s t : State} {c : ErrCode} (h : exec i s = .next t) (hi : i ≠ .clrErr)
    (hc : s.err = some c) : t.err = some c := by
  rcases exec_cases h with ⟨-, rfl⟩ | ⟨cu, -, rfl⟩ | ⟨-, rfl⟩ | ⟨-, -, rfl⟩ | ⟨-, -, rfl⟩ |
    ⟨-, a0, a1, a2, a, rfl, -⟩ | ⟨-, k, -, rfl⟩ | ⟨-, -, rfl⟩ | ⟨-, -, rfl⟩ | ⟨-, -, rfl⟩ | ⟨-, -, rfl⟩ |
    ⟨-, -, rfl⟩ | ⟨hclr, -⟩
  · exact hc
  · exact hc
  · exact hc
  · exact hc
  · exact raiseError_err_of_some hc .domain
  · exact hc
  · exact (writeWord_err k _ s).trans hc
  · exact raiseError_err_of_some hc .sequence
  · exact hc
  · exact raiseError_err_of_some hc .notReady
  · exact hc
  · exact raiseError_err_of_some hc .notReady
  · exact absurd hclr hi

theorem exec_clrErr (s : State) : exec .clrErr s = .next (clearError s) := rfl

theorem clearError_clearError (s : State) : clearError (clearError s) = clearError s := rfl

/-- Only a reset and CLRERR take a recorded error away, and they leave ERR = 0. -/
theorem serve_lowers_err {ev : HostEvent} {s t : State} {c : ErrCode} (h : serve ev s = .next t)
    (hc : s.err = some c) (hne : t.err ≠ some c) :
    t.err = none ∧ ((∃ bytes, ev = .write 0x00 bytes ∧ decodeCmd (wordOfBytes bytes) = .ok .clrErr) ∨
      ev = .reset ∨ ∃ v, ev = .resetDuringCmd v) := by
  rcases serve_cases h with ⟨r, -, rfl⟩ | ⟨bytes, -, -, rfl⟩ | ⟨bytes, i, rfl, -, hd, hi⟩ |
    ⟨bytes, e, -, -, -, rfl⟩ | ⟨rfl, rfl⟩ | ⟨v, rfl, rfl⟩
  · exact absurd hc hne
  · exact absurd hc hne
  · by_cases hclr : i = .clrErr
    · subst hclr
      rw [exec_clrErr] at hi
      cases hi
      exact ⟨clearError_err s, .inl ⟨bytes, rfl, hd⟩⟩
    · exact absurd (exec_keeps_err hi hclr hc) hne
  · exact absurd (raiseError_err_of_some hc .illegalCmd) hne
  · exact ⟨rfl, .inr (.inl rfl)⟩
  · exact ⟨rfl, .inr (.inr ⟨v, rfl⟩)⟩

end Sys2Proof.Machine

namespace Sys2Proof.Proofs

open Sys2Proof.Machine

/-- Settles O19: a step that changes the state serves an event, and of the events only CLRERR and the two resets lower
ERR. -/
theorem onlyClrErrAndResetLowerErr : Obligations.OnlyClrErrAndResetLowerErr := by
  intro s t c h hc hne
  rcases step_cases h with ⟨-, rfl⟩ | ⟨ev, rest, hp, hs⟩
  · exact absurd hc hne
  · obtain ⟨hnone, hev⟩ := serve_lowers_err hs hc hne
    rw [hp]
    rcases hev with ⟨bytes, rfl, hd⟩ | rfl | ⟨v, rfl⟩
    · exact ⟨hnone, .inl ⟨bytes, rest, rfl, hd⟩⟩
    · exact ⟨hnone, .inr (.inl ⟨rest, rfl⟩)⟩
    · exact ⟨hnone, .inr (.inr ⟨v, rest, rfl⟩)⟩

/-- Settles O34: CLRERR is `clearError`, which is idempotent, and STATUS shows the clear ERR as code 0. -/
theorem clrErrClearsErr : Obligations.ClrErrClearsErr := by
  intro s
  obtain ⟨-, -, herr⟩ := statusWord_fields (clearError s).toEngine
  refine ⟨clearError s, exec_clrErr s, rfl, ?_, ?_⟩
  · rw [herr, clearError_err]
    rfl
  · rw [exec_clrErr, clearError_clearError]

end Sys2Proof.Proofs
end

section
/-!
The statements about errors (60_exceptions.md): what the failing commands write, that a command whose conditions hold
raises nothing, that errors do not block, that the fault mark sticks, and that the engines of a platform are independent.
-/

namespace Sys2Proof.Machine

/-! ### The conditions of the commands (60_exceptions.md R126, R128) -/

theorem F64.isFinite_eq_false_iff (b : Word) : F64.isFinite b = false ↔ b.extractLsb 62 52 = 0x7FF := by
  rw [F64.isFinite, bne_eq_false_iff_eq, F64.expField, ← BitVec.toNat_inj]
  rfl

theorem exec_trunc32_of_not_isFinite {s : State} (h : F64.isFinite s.data = false) :
    exec .trunc32 s = .next (raiseError .domain s) := by
  rw [exec, execTrunc32, h, require_false]

/-- The phase and the operand are those that the command asks for: no error of 60_exceptions.md R126 applies. -/
structure ConditionsMet (i : Instr) (s : State) : Prop where
  ready : i = .random ∨ i = .uint32 → s.phase = .ready
  seeding : i = .seedFold → ∃ k, s.phase = .seeding k
  finite : i = .trunc32 → s.data.extractLsb 62 52 ≠ 0x7FF

/-- `t` records the same errors as `s`: the same ERR and the same fault mark. -/
structure SameErrors (s t : State) : Prop where
  err : t.err = s.err
  faultMark : t.faultMark = s.faultMark

/-- All that a command can do to ERR and the fault mark: an error if its conditions are not met, else nothing, unless it
is CLRERR. -/
theorem exec_error_cases {i : Instr} {s t : State} (h : exec i s = .next t) :
    (¬ ConditionsMet i s ∧ ∃ c, t = raiseError c s) ∨ SameErrors s t ∨ (i = .clrErr ∧ t = clearError s) := by
  rcases exec_cases h with ⟨-, rfl⟩ | ⟨cu, -, rfl⟩ | ⟨-, rfl⟩ | ⟨-, -, rfl⟩ | ⟨htrunc, hnan, rfl⟩ |
    ⟨-, a0, a1, a2, a, rfl, -⟩ | ⟨-, k, -, rfl⟩ | ⟨hfold, hk, rfl⟩ | ⟨-, -, rfl⟩ | ⟨hrandom, hr, rfl⟩ |
    ⟨-, -, rfl⟩ | ⟨huint, hr, rfl⟩ | ⟨hclr, rfl⟩
  · exact .inr (.inl ⟨rfl, rfl⟩)
  · exact .inr (.inl ⟨rfl, rfl⟩)
  · exact .inr (.inl ⟨rfl, rfl⟩)
  · exact .inr (.inl ⟨rfl, rfl⟩)
  · exact .inl ⟨fun hc => hc.finite htrunc ((F64.isFinite_eq_false_iff _).1 hnan), .domain, rfl⟩
  · exact .inr (.inl ⟨rfl, rfl⟩)
  · exact .inr (.inl ⟨writeWord_err k _ s, writeWord_faultMark k _ s⟩)
  · exact .inl ⟨fun hc => (hc.seeding hfold).elim hk, .sequence, rfl⟩
  · exact .inr (.inl ⟨rfl, rfl⟩)
  · exact .inl ⟨fun hc => hr (hc.ready (.inl hrandom)), .notReady, rfl⟩
  · exact .inr (.inl ⟨rfl, rfl⟩)
  · exact .inl ⟨fun hc => hr (hc.ready (.inr huint)), .notReady, rfl⟩
  · exact .inr (.inr ⟨hclr, rfl⟩)

/-! ### Errors do not block (60_exceptions.md R127, R131) -/

/-- `s` with other errors recorded. -/
def withErrors (e : Option ErrCode) (m : Bool) (s : State) : State := { s with err := e, faultMark := m }

/-- Both outcomes are next states, which differ in the errors recorded at most. -/
def SameNextButErrors (o o' : Host.Outcome State Fault Refusal) : Prop :=
  ∃ t e m, o = .next t ∧ o' = .next (withErrors e m t)

theorem require_withErrors (ok : Bool) (c : ErrCode) (done s : State) (e : Option ErrCode) (m : Bool) :
    SameNextButErrors (require ok c done s) (require ok c (withErrors e m done) (withErrors e m s)) := by
  cases ok with
  | true => exact ⟨done, e, m, rfl, rfl⟩
  | false => exact ⟨raiseError c s, if e = none then some c else e, true, rfl, rfl⟩

theorem writeWord_withErrors (k : Fin 3) (v : Word) (e : Option ErrCode) (m : Bool) (s : State) :
    writeWord k v (withErrors e m s) = withErrors e m (writeWord k v s) := by
  fin_cases k <;> rfl

theorem readWord_withErrors (k : Fin 3) (e : Option ErrCode) (m : Bool) (s : State) :
    readWord k (withErrors e m s).toEngine = readWord k s.toEngine :=
  readWord_congr rfl rfl rfl k

theorem seedBegun_withErrors (e : Option ErrCode) (m : Bool) (s : State) :
    seedBegun (withErrors e m s) = withErrors e m (seedBegun s) := by
  simp only [seedBegun_eq, withErrors]

theorem exec_seedFold_withErrors (s : State) (e : Option ErrCode) (m : Bool) :
    SameNextButErrors (exec .seedFold s) (exec .seedFold (withErrors e m s)) := by
  by_cases hp : ∃ k, s.phase = .seeding k
  · obtain ⟨k, hk⟩ := hp
    refine ⟨_, e, m, exec_seedFold_of_seeding hk, ?_⟩
    rw [exec_seedFold_of_seeding (s := withErrors e m s) hk, readWord_withErrors, writeWord_withErrors]
    rfl
  · have hs := not_exists.1 hp
    exact ⟨_, if e = none then some .sequence else e, true, exec_seedFold_of_not_seeding hs,
      exec_seedFold_of_not_seeding (s := withErrors e m s) hs⟩

/-- A command reads neither ERR nor the fault mark but to record an error. -/
theorem exec_withErrors (i : Instr) (s : State) (e : Option ErrCode) (m : Bool) :
    SameNextButErrors (exec i s) (exec i (withErrors e m s)) := by
  cases i with
  | trunc32 => exact require_withErrors _ _ _ _ e m
  | random => exact require_withErrors _ _ _ _ e m
  | uint32 => exact require_withErrors _ _ _ _ e m
  | seedBegin => exact ⟨seedBegun s, e, m, exec_seedBegin s, by rw [exec_seedBegin, seedBegun_withErrors]⟩
  | seedFold => exact exec_seedFold_withErrors s e m
  | clrErr => exact ⟨_, none, m, rfl, rfl⟩
  | _ => exact ⟨_, e, m, rfl, rfl⟩

/-! ### The fault mark (60_exceptions.md R140) -/

/-- From `s` to `t` a set fault mark stays set, and so does the rule that ERR is set under the mark only. -/
structure KeepsMark (s t : State) : Prop where
  mark : s.faultMark = true → t.faultMark = true
  inv : MarkInv s → MarkInv t

theorem SameErrors.keepsMark {s t : State} (h : SameErrors s t) : KeepsMark s t where
  mark hm := h.faultMark.trans hm
  inv hinv he := h.faultMark.trans (hinv (h.err ▸ he))

theorem keepsMark_of_err_none {s t : State} (he : t.err = none) (hm : t.faultMark = s.faultMark) : KeepsMark s t where
  mark h := hm.trans h
  inv _ hne := absurd he hne

theorem keepsMark_raiseError (c : ErrCode) (s : State) : KeepsMark s (raiseError c s) where
  mark _ := rfl
  inv _ _ := rfl

theorem exec_keepsMark {i : Instr} {s t : State} (h : exec i s = .next t) : KeepsMark s t := by
  rcases exec_error_cases h with ⟨-, c, rfl⟩ | hsame | ⟨-, rfl⟩
  · exact keepsMark_raiseError c s
  · exact hsame.keepsMark
  · exact keepsMark_of_err_none rfl rfl

theorem serve_keepsMark {ev : HostEvent} {s t : State} (h : serve ev s = .next t) : KeepsMark s t := by
  rcases serve_cases h with ⟨r, -, rfl⟩ | ⟨bytes, -, -, rfl⟩ | ⟨bytes, i, -, -, -, hi⟩ | ⟨bytes, c, -, -, -, rfl⟩ |
    ⟨-, rfl⟩ | ⟨v, -, rfl⟩
  · exact SameErrors.keepsMark ⟨rfl, rfl⟩
  · exact SameErrors.keepsMark ⟨rfl, rfl⟩
  · exact exec_keepsMark hi
  · exact keepsMark_raiseError .illegalCmd s
  · exact keepsMark_of_err_none rfl rfl
  · exact keepsMark_of_err_none rfl rfl

/-! ### Platforms (60_exceptions.md R137) -/

/-- All that a platform can do, if it answers a next state: the step of the engine that the event is routed to. -/
theorem servePlatform_next {ev : BusEvent} {p q : List Slot} (h : servePlatform ev p = .next q) :
    ∃ i ev' sl t, route p ev = some (i, ev') ∧ p[i]? = some sl ∧ serve ev' sl.engine = .next t ∧
      q = p.set i { sl with engine := t } := by
  unfold servePlatform at h
  split at h
  case h_1 => cases h
  case h_2 i ev' hroute =>
    split at h
    case h_1 => cases h
    case h_2 sl hsl =>
      split at h
      case h_1 t ht => exact ⟨i, ev', sl, t, hroute, hsl, ht, (Host.Outcome.next.inj h).symm⟩
      case h_2 => cases h
      case h_3 => cases h

end Sys2Proof.Machine

namespace Sys2Proof.Proofs

open Sys2Proof.Machine

/-- Settles O16: outside its condition each command is `raiseError` of its code. -/
theorem failingCommandsWriteOnlyErr : Obligations.FailingCommandsWriteOnlyErr := fun s =>
  ⟨fun hr => ⟨exec_random_of_not_ready hr, exec_uint32_of_not_ready hr⟩, exec_seedFold_of_not_seeding,
    fun hd => exec_trunc32_of_not_isFinite ((F64.isFinite_eq_false_iff s.data).2 hd)⟩

/-- Settles O17: a command answers a next state, and it raises an error only if its conditions are not met. -/
theorem completingCommandsRaiseNothing : Obligations.CompletingCommandsRaiseNothing := by
  intro i s hready hseeding hfinite
  obtain ⟨t, ht⟩ := exec_next i s
  refine ⟨t, ht, ?_⟩
  rcases exec_error_cases ht with ⟨hnot, -⟩ | hsame | ⟨hclr, rfl⟩
  · exact absurd ⟨hready, hseeding, hfinite⟩ hnot
  · exact ⟨hsame.faultMark, fun _ => hsame.err⟩
  · exact ⟨rfl, fun hne => absurd hclr hne⟩

/-- Settles O18: the command commutes with a change of the errors recorded. -/
theorem errorsDoNotBlock : Obligations.ErrorsDoNotBlock := by
  intro i s e m
  obtain ⟨t, e', m', ht, ht'⟩ := exec_withErrors i s e m
  exact ⟨t, withErrors e' m' t, ht, ht', rfl⟩

/-- Settles O20: only `raiseError` writes the mark, and it sets it; what lowers ERR leaves it 0. -/
theorem faultMarkSticks : Obligations.FaultMarkSticks := by
  intro s t h
  rcases step_cases h with ⟨-, rfl⟩ | ⟨ev, rest, -, hs⟩
  · exact ⟨id, id⟩
  · have hkeeps := serve_keepsMark hs
    exact ⟨hkeeps.mark, hkeeps.inv⟩

/-- Settles O53: the platform replaces the slot of the routed event's engine in its list. -/
theorem enginesAreIndependent : Obligations.EnginesAreIndependent := by
  intro p q ev h
  obtain ⟨i, ev', sl, t, hroute, hsl, ht, rfl⟩ := servePlatform_next h
  obtain ⟨hi, -⟩ := List.getElem?_eq_some_iff.1 hsl
  exact ⟨i, ev', sl, t, hroute, hsl, ht, List.getElem?_set_self hi, List.length_set, fun j hj =>
    List.getElem?_set_ne hj.symm⟩

end Sys2Proof.Proofs
end

section
/-!
The statements about reset and waiting (70_reset_and_hazards.md): with no event waiting a step changes nothing, a reset
gives the reset registers also when it abandons a command, and DATA stays 0 until the host writes it.
-/

namespace Sys2Proof.Machine

/-- With no event waiting the engine waits (R146); `step_cons` is the other case. -/
theorem step_nil {s : State} (h : s.pending = []) : step s = .next s := by
  simp [step, serveNext, h]

/-! ### DATA without a DATA write (70_reset_and_hazards.md R148) -/

/-- All that an event other than a DATA write can leave in DATA: what it held, or the reset value. -/
theorem serve_data {ev : HostEvent} {s t : State} (h : serve ev s = .next t) (hev : ∀ bytes, ev ≠ .write 0x08 bytes) :
    t.data = s.data ∨ t.data = Engine.reset.data := by
  rcases serve_cases h with ⟨r, -, rfl⟩ | ⟨bytes, hw, -, -⟩ | ⟨bytes, i, -, -, -, hi⟩ | ⟨bytes, c, -, -, -, rfl⟩ |
    ⟨-, rfl⟩ | ⟨v, -, rfl⟩
  · exact .inl (recordRead_data _ s)
  · exact absurd hw (hev bytes)
  · obtain ⟨hdata, -⟩ := Proofs.accessMatrixWrites i s t hi
    exact .inl hdata
  · exact .inl (raiseError_data .illegalCmd s)
  · exact .inr (resetEngine_data s)
  · exact .inr (resetEngine_data s)

theorem int32Emu_zero : int32Emu 0 = 0 := by
  have hmag : F64.mag 0 = 0 := by decide
  exact int32Emu_eq_zero (by decide) (by rw [F64.truncVal_of_mag_lt (hmag ▸ F64.oneUnits_pos)]; rfl)

end Sys2Proof.Machine

namespace Sys2Proof.Proofs

open Sys2Proof.Machine

/-- Settles O52: an event but a DATA write leaves in DATA what it held or the reset value, which is 0; and 0 is finite,
with `Int32Emu` 0. -/
theorem trunc32AfterReset : Obligations.Trunc32AfterReset := by
  refine ⟨rfl, fun s t hdata hpending hstep => ?_, fun s hdata => ?_⟩
  · rcases step_cases hstep with ⟨-, rfl⟩ | ⟨ev, rest, hp, hs⟩
    · exact hdata
    · have hev : ∀ bytes, ev ≠ .write 0x08 bytes := fun bytes hw => hpending bytes rest (hw ▸ hp)
      rcases serve_data hs hev with hkeeps | hreset
      · exact hkeeps.trans hdata
      · exact hreset
  · have hfinite : F64.isFinite s.data = true := by rw [hdata]; decide
    have hzero : int32Emu s.data = 0 := by rw [hdata, int32Emu_zero]
    rw [exec_trunc32_of_isFinite hfinite, hzero]
    rfl

/-- Settles O10: with no event waiting, a step answers the same state. -/
theorem engineWaitsForAccesses : Obligations.EngineWaitsForAccesses := fun _ => step_nil

/-- Settles O15: the step serves the reset, which writes the reset registers; when it abandons a CMD write, one
acknowledgement is recorded besides. -/
theorem resetEventGivesResetRegisters : Obligations.ResetEventGivesResetRegisters := by
  intro s rest
  refine ⟨fun hp => step_cons hp, fun v hp => ?_⟩
  exact ⟨recordAbandoned (resetEngine (withPending rest s)), Config.abandonedCompletes s.freeCount, step_cons hp,
    rfl, rfl, rfl, rfl, rfl⟩

end Sys2Proof.Proofs
end
